-- ==== Sys2Proof/Word.lean ====
section
/-! DEFINITION. The widths of the block: 8-bit registers and memory bytes, 16-bit words, 12-bit addresses and the
4-bit fields of an instruction word (spec rules R7, R8, R9, R10). Every value is unsigned (R10); nothing here is signed. -/

namespace Sys2Proof

/-- A general register, an immediate `kk` or a byte of memory (R7 REG_BITS, R35). -/
abbrev Byte := BitVec 8

/-- An instruction word, and the width of I, pc and a stack entry (R7 I_BITS, PC_BITS, STACK_ENTRY_BITS). -/
abbrev Word := BitVec 16

/-- A memory address, or the field `nnn` (R7 ADDR_BITS, R9). -/
abbrev Addr := BitVec 12

/-- A 4-bit field: the group `g`, the row count or sub-key `n` (R9). -/
abbrev Nibble := BitVec 4

/-- A register index `x` or `y`, naming V0 to VF (R9, R83). -/
abbrev RegIdx := BitVec 4

/-- The index of VF, the flag register (R31). -/
abbrev VF : RegIdx := 15#4

end Sys2Proof
end

