-- ==== Sys2Proof/Config.lean ====
section
/-! DEFINITION. What an implementation fixes (spec rule R7, R44) as TYPES, and the one free value of the model. The value each
parameter takes for this hardware, and the default FONT, stand in Sys2Proof/Machine/Params.lean. -/

namespace Sys2Proof

/-- GROUP0_KEY: how wide the sub-key of group 0 is (R7, R84; decision D2). -/
inductive Group0Key where
  /-- 00E0 and 00EE are matched on all 12 low bits. -/
  | full12
  /-- They are matched on `kk` alone, for every `x`. -/
  | lowByte
  deriving DecidableEq, Repr

/-- SPRITE_ADDR_POLICY: what a sprite row past 0xFFF does (R7, R182; decision D5). -/
inductive SpriteAddrPolicy where
  /-- The row address is taken modulo 0x1000. -/
  | wrap
  /-- The draw raises SpriteRange before any write. -/
  | fault
  deriving DecidableEq, Repr

/-- OPERAND_SAMPLING: what becomes of VF named as an operand of 8xy5, 8xy6, 8xy7, 8xyE and Dxyn (R7, R12; decision D1). -/
inductive OperandSampling where
  /-- Every operand is read from the state before the step. -/
  | snapshot
  /-- The model refuses those forms. -/
  | refuseVfOperand
  deriving DecidableEq, Repr

/-- The parameters a model may take as arguments (R7, R44): fixed for a run, no part of the state. STACK_FAULT_POLICY is not
among them, since R7 lets a model take `fault` only. -/
structure Params where
  group0Key : Group0Key
  spriteAddrPolicy : SpriteAddrPolicy
  operandSampling : OperandSampling
  deriving DecidableEq, Repr

/-- FREE VALUE (log entry 1). The byte the random source gives at its `k`-th consultation (R7 RAND, R39, R166; decision D12):
any value 0x00 to 0xFF. It has no body, so no proof can know it. -/
opaque Config.randByte : Nat → Byte

end Sys2Proof
end

