-- ==== Sys2Proof/Machine/Params.lean ====
section
/-! DEFINITION. The value each parameter of spec rule R7 takes for this hardware, and the default FONT of rule R37. They stand
in this folder, not in Config.lean, so that a repair may mend one of them. -/

namespace Sys2Proof.Machine

/-- The parameters of this hardware (R7): GROUP0_KEY = full12, SPRITE_ADDR_POLICY = wrap, OPERAND_SAMPLING = snapshot. -/
def params : Params where
  group0Key := .full12
  spriteAddrPolicy := .wrap
  operandSampling := .snapshot

/-- FONT, glyphs '0' to '7' (R36, R37). PRESUMED by the spec itself (general knowledge; log entry 2). -/
def fontLow : List Byte :=
  [0xF0, 0x90, 0x90, 0x90, 0xF0] ++ [0x20, 0x60, 0x20, 0x20, 0x70] ++
  [0xF0, 0x10, 0xF0, 0x80, 0xF0] ++ [0xF0, 0x10, 0xF0, 0x10, 0xF0] ++
  [0x90, 0x90, 0xF0, 0x10, 0x10] ++ [0xF0, 0x80, 0xF0, 0x10, 0xF0] ++
  [0xF0, 0x80, 0xF0, 0x90, 0xF0] ++ [0xF0, 0x10, 0x20, 0x40, 0x40]

/-- FONT, glyphs '8' to 'F' (R36, R37). PRESUMED by the spec itself (general knowledge; log entry 2). -/
def fontHigh : List Byte :=
  [0xF0, 0x90, 0xF0, 0x90, 0xF0] ++ [0xF0, 0x90, 0xF0, 0x10, 0xF0] ++
  [0xF0, 0x90, 0xF0, 0x90, 0x90] ++ [0xE0, 0x90, 0xE0, 0x90, 0xE0] ++
  [0xF0, 0x80, 0x80, 0x80, 0xF0] ++ [0xE0, 0x90, 0x90, 0x90, 0xE0] ++
  [0xF0, 0x80, 0xF0, 0x80, 0xF0] ++ [0xF0, 0x80, 0xF0, 0x80, 0x80]

/-- The 80 bytes of the default FONT, from 0x000 on (R37; decision D22). -/
def font : List Byte := fontLow ++ fontHigh

end Sys2Proof.Machine
end

