-- ==== Sys2Proof/Syntax.lean ====
section
/-! DEFINITION. The instruction set: one constructor per row of spec/opcode_table.json (44 rows: the 23 instructions of spec
rule R85 and the 21 rows that take the no-op default, R118 and R119). Field names are the spec's (R9). A field that an
instruction decodes and ignores (n of 5xyn and 9xyn, y of 8xy6 and 8xyE, the fields of a no-op row) is kept, so that no bit of
a word is dropped by decoding (log entry 8). -/

namespace Sys2Proof

/-- A decoded instruction. -/
inductive Instr where
  /-- 00E0 clear-screen (R181) -/
  | cls
  /-- 00EE return (R130) -/
  | ret
  /-- 1nnn jump (R131) -/
  | jp (nnn : Addr)
  /-- 2nnn call (R132) -/
  | call (nnn : Addr)
  /-- 3xkk skip-eq-imm (R134) -/
  | seImm (x : RegIdx) (kk : Byte)
  /-- 4xkk skip-ne-imm (R135) -/
  | sneImm (x : RegIdx) (kk : Byte)
  /-- 5xyn skip-eq-reg, n ignored (R136) -/
  | seReg (x y : RegIdx) (n : Nibble)
  /-- 6xkk load-imm (R151) -/
  | ldImm (x : RegIdx) (kk : Byte)
  /-- 7xkk add-imm (R152) -/
  | addImm (x : RegIdx) (kk : Byte)
  /-- 8xy0 load-reg (R153) -/
  | ldReg (x y : RegIdx)
  /-- 8xy1 or (R154) -/
  | orReg (x y : RegIdx)
  /-- 8xy2 and (R155) -/
  | andReg (x y : RegIdx)
  /-- 8xy3 xor (R156) -/
  | xorReg (x y : RegIdx)
  /-- 8xy4 add-reg (R160) -/
  | addReg (x y : RegIdx)
  /-- 8xy5 sub (R161) -/
  | subReg (x y : RegIdx)
  /-- 8xy6 shr, y ignored (R162) -/
  | shr (x y : RegIdx)
  /-- 8xy7 subn (R163) -/
  | subnReg (x y : RegIdx)
  /-- 8xyE shl, y ignored (R164) -/
  | shl (x y : RegIdx)
  /-- 9xyn skip-ne-reg, n ignored (R137) -/
  | sneReg (x y : RegIdx) (n : Nibble)
  /-- Annn load-addr (R165) -/
  | ldI (nnn : Addr)
  /-- Bnnn jump-offset (R138) -/
  | jpV0 (nnn : Addr)
  /-- Cxkk rand (R166) -/
  | rnd (x : RegIdx) (kk : Byte)
  /-- Dxyn draw (R182) -/
  | drw (x y : RegIdx) (n : Nibble)
  /-- 0nnn other than 00E0 and 00EE: no-op default (R119) -/
  | nop0 (nnn : Addr)
  /-- 8xy8: no-op default (R119) -/
  | nop88 (x y : RegIdx)
  /-- 8xy9: no-op default (R119) -/
  | nop89 (x y : RegIdx)
  /-- 8xyA: no-op default (R119) -/
  | nop8A (x y : RegIdx)
  /-- 8xyB: no-op default (R119) -/
  | nop8B (x y : RegIdx)
  /-- 8xyC: no-op default (R119) -/
  | nop8C (x y : RegIdx)
  /-- 8xyD: no-op default (R119) -/
  | nop8D (x y : RegIdx)
  /-- 8xyF: no-op default (R119) -/
  | nop8F (x y : RegIdx)
  /-- Ex9E key-press skip, out of scope: no-op default (R118) -/
  | nopEx9E (x : RegIdx)
  /-- ExA1 key-not-pressed skip, out of scope: no-op default (R118) -/
  | nopExA1 (x : RegIdx)
  /-- every other Exkk: no-op default (R118) -/
  | nopEx (x : RegIdx) (kk : Byte)
  /-- Fx07 delay timer read, out of scope: no-op default (R118) -/
  | nopFx07 (x : RegIdx)
  /-- Fx0A key wait, out of scope: no-op default (R118) -/
  | nopFx0A (x : RegIdx)
  /-- Fx15 delay timer write, out of scope: no-op default (R118) -/
  | nopFx15 (x : RegIdx)
  /-- Fx18 sound timer write, out of scope: no-op default (R118) -/
  | nopFx18 (x : RegIdx)
  /-- Fx29 font address, out of scope: no-op default (R118) -/
  | nopFx29 (x : RegIdx)
  /-- Fx33 BCD store, out of scope: no-op default (R118) -/
  | nopFx33 (x : RegIdx)
  /-- Fx55 bulk store, out of scope: no-op default (R118) -/
  | nopFx55 (x : RegIdx)
  /-- Fx65 bulk load, out of scope: no-op default (R118) -/
  | nopFx65 (x : RegIdx)
  /-- Fx1E, not mentioned by the source: no-op default (R119) -/
  | nopFx1E (x : RegIdx)
  /-- every other Fxkk: no-op default (R118) -/
  | nopFx (x : RegIdx) (kk : Byte)
  deriving DecidableEq, Repr

end Sys2Proof
end

