-- ==== Sys2Proof/WellFormed.lean ====
section
/-! DEFINITION. Which terms of Instr stand for a word of their own row. Three rows of the opcode table are catch-alls that lose
to a row with more mask bits (spec rule R89), so their field must miss that row's key; every other term is well formed. -/

namespace Sys2Proof

/-- The `kk` of the nine group-F rows of the table that name a trailing byte (R87, R88). -/
def groupFKeys : List Byte := [0x07, 0x0A, 0x15, 0x18, 0x1E, 0x29, 0x33, 0x55, 0x65]

/-- The check of one instruction. -/
def Instr.wf : Instr → Bool
  | .nop0 nnn => nnn != 0x0E0#12 && nnn != 0x0EE#12
  | .nopEx _ kk => kk != 0x9E#8 && kk != 0xA1#8
  | .nopFx _ kk => !groupFKeys.contains kk
  | .cls | .ret | .jp _ | .call _ | .seImm _ _ | .sneImm _ _ | .seReg _ _ _ | .ldImm _ _ | .addImm _ _
  | .ldReg _ _ | .orReg _ _ | .andReg _ _ | .xorReg _ _ | .addReg _ _ | .subReg _ _ | .shr _ _ | .subnReg _ _ | .shl _ _
  | .sneReg _ _ _ | .ldI _ | .jpV0 _ | .rnd _ _ | .drw _ _ _
  | .nop88 _ _ | .nop89 _ _ | .nop8A _ _ | .nop8B _ _ | .nop8C _ _ | .nop8D _ _ | .nop8F _ _
  | .nopEx9E _ | .nopExA1 _
  | .nopFx07 _ | .nopFx0A _ | .nopFx15 _ | .nopFx18 _ | .nopFx29 _ | .nopFx33 _ | .nopFx55 _ | .nopFx65 _ | .nopFx1E _ => true

end Sys2Proof
end

