-- ==== Sys2Proof/Decode.lean ====
section
/-! DEFINITION. The decoder of spec rule R89, total over all 65536 words (R83: decode cannot fail), the decoder over bytes
(big-endian, R62), the encoder written from the same patterns (R85 and spec/opcode_table.json), and the table itself as match
and mask words. The field places and bit patterns are the spec's, which marks them general knowledge except for 6xkk and 3xkk
(R82, GK1). -/

namespace Sys2Proof

/-! The fields of a word (R9). -/

/-- g = w[15:12], the opcode group. -/
def fieldG (w : Word) : Nibble := w.extractLsb' 12 4

/-- x = w[11:8]. -/
def fieldX (w : Word) : RegIdx := w.extractLsb' 8 4

/-- y = w[7:4]. -/
def fieldY (w : Word) : RegIdx := w.extractLsb' 4 4

/-- n = w[3:0]. -/
def fieldN (w : Word) : Nibble := w.extractLsb' 0 4

/-- kk = w[7:0]. -/
def fieldKk (w : Word) : Byte := w.extractLsb' 0 8

/-- nnn = w[11:0]. -/
def fieldNnn (w : Word) : Addr := w.extractLsb' 0 12

/-! Decoding (R84, R89). -/

/-- Group 0: the sub-key is `nnn`, or `kk` under GROUP0_KEY = low_byte (R84; decision D2). -/
def decodeGroup0 (key : Group0Key) (w : Word) : Instr :=
  match key with
  | .full12 =>
    if fieldNnn w = 0x0E0#12 then .cls else if fieldNnn w = 0x0EE#12 then .ret else .nop0 (fieldNnn w)
  | .lowByte =>
    if fieldKk w = 0xE0#8 then .cls else if fieldKk w = 0xEE#8 then .ret else .nop0 (fieldNnn w)

/-- Group 8: the sub-key is `n` (R84). -/
def decodeGroup8 (w : Word) : Instr :=
  match (fieldN w).toNat with
  | 0x0 => .ldReg (fieldX w) (fieldY w)
  | 0x1 => .orReg (fieldX w) (fieldY w)
  | 0x2 => .andReg (fieldX w) (fieldY w)
  | 0x3 => .xorReg (fieldX w) (fieldY w)
  | 0x4 => .addReg (fieldX w) (fieldY w)
  | 0x5 => .subReg (fieldX w) (fieldY w)
  | 0x6 => .shr (fieldX w) (fieldY w)
  | 0x7 => .subnReg (fieldX w) (fieldY w)
  | 0x8 => .nop88 (fieldX w) (fieldY w)
  | 0x9 => .nop89 (fieldX w) (fieldY w)
  | 0xA => .nop8A (fieldX w) (fieldY w)
  | 0xB => .nop8B (fieldX w) (fieldY w)
  | 0xC => .nop8C (fieldX w) (fieldY w)
  | 0xD => .nop8D (fieldX w) (fieldY w)
  | 0xE => .shl (fieldX w) (fieldY w)
  | _ => .nop8F (fieldX w) (fieldY w)

/-- Group E: the sub-key is `kk`, and every word is a no-op (R84, R118). -/
def decodeGroupE (w : Word) : Instr :=
  if fieldKk w = 0x9E#8 then .nopEx9E (fieldX w)
  else if fieldKk w = 0xA1#8 then .nopExA1 (fieldX w)
  else .nopEx (fieldX w) (fieldKk w)

/-- Group F: the sub-key is `kk`, and every word is a no-op (R84, R118, R119). -/
def decodeGroupF (w : Word) : Instr :=
  if fieldKk w = 0x07#8 then .nopFx07 (fieldX w)
  else if fieldKk w = 0x0A#8 then .nopFx0A (fieldX w)
  else if fieldKk w = 0x15#8 then .nopFx15 (fieldX w)
  else if fieldKk w = 0x18#8 then .nopFx18 (fieldX w)
  else if fieldKk w = 0x1E#8 then .nopFx1E (fieldX w)
  else if fieldKk w = 0x29#8 then .nopFx29 (fieldX w)
  else if fieldKk w = 0x33#8 then .nopFx33 (fieldX w)
  else if fieldKk w = 0x55#8 then .nopFx55 (fieldX w)
  else if fieldKk w = 0x65#8 then .nopFx65 (fieldX w)
  else .nopFx (fieldX w) (fieldKk w)

/-- The decode function of R89, with GROUP0_KEY as its argument. -/
def decodeWith (key : Group0Key) (w : Word) : Instr :=
  match (fieldG w).toNat with
  | 0x0 => decodeGroup0 key w
  | 0x1 => .jp (fieldNnn w)
  | 0x2 => .call (fieldNnn w)
  | 0x3 => .seImm (fieldX w) (fieldKk w)
  | 0x4 => .sneImm (fieldX w) (fieldKk w)
  | 0x5 => .seReg (fieldX w) (fieldY w) (fieldN w)
  | 0x6 => .ldImm (fieldX w) (fieldKk w)
  | 0x7 => .addImm (fieldX w) (fieldKk w)
  | 0x8 => decodeGroup8 w
  | 0x9 => .sneReg (fieldX w) (fieldY w) (fieldN w)
  | 0xA => .ldI (fieldNnn w)
  | 0xB => .jpV0 (fieldNnn w)
  | 0xC => .rnd (fieldX w) (fieldKk w)
  | 0xD => .drw (fieldX w) (fieldY w) (fieldN w)
  | 0xE => decodeGroupE w
  | _ => decodeGroupF w

/-- The decoder of this hardware (R89 with the GROUP0_KEY of R7). -/
def decode (w : Word) : Instr := decodeWith Machine.params.group0Key w

/-! Bytes (R62, R80). -/

/-- The word of two bytes, the byte at the lower address being bits 15-8 (R62). -/
def joinBytes (hi lo : Byte) : Word := (hi.zeroExtend 16 <<< 8) ||| lo.zeroExtend 16

/-- Bits 15-8 of a word: the byte stored at the lower address (R62). -/
def highByte (w : Word) : Byte := w.extractLsb' 8 8

/-- Bits 7-0 of a word: the byte stored at the higher address (R62). -/
def lowByte (w : Word) : Byte := w.extractLsb' 0 8

/-- Why bytes do not decode: only because there are fewer than two of them (R80, R83). -/
inductive DecodeError where
  /-- An instruction is one 16-bit word, and the list ends before its second byte. -/
  | truncated
  deriving DecidableEq, Repr

/-- Decoding a list of bytes: the instruction of the first two, and the rest of the list. -/
def decodeBytes : List Byte → Except DecodeError (Instr × List Byte)
  | hi :: lo :: rest => .ok (decode (joinBytes hi lo), rest)
  | [_] | [] => .error .truncated

/-! Encoding (R85 and spec/opcode_table.json). -/

/-- A word of four nibbles: formats FR and FD of R81. -/
def wordOfNibbles (g : Nibble) (x y : RegIdx) (n : Nibble) : Word := g ++ x ++ y ++ n

/-- A word of a group, a register and a byte: formats FK and FS of R81. -/
def wordOfByte (g : Nibble) (x : RegIdx) (kk : Byte) : Word := g ++ x ++ kk

/-- A word of a group and an address: format FA of R81. -/
def wordOfAddr (g : Nibble) (nnn : Addr) : Word := g ++ nnn

/-- The word of an instruction (R85); for a catch-all no-op row, the word of the fields it holds. -/
def encode : Instr → Word
  | .cls => 0x00E0
  | .ret => 0x00EE
  | .jp nnn => wordOfAddr 0x1 nnn
  | .call nnn => wordOfAddr 0x2 nnn
  | .seImm x kk => wordOfByte 0x3 x kk
  | .sneImm x kk => wordOfByte 0x4 x kk
  | .seReg x y n => wordOfNibbles 0x5 x y n
  | .ldImm x kk => wordOfByte 0x6 x kk
  | .addImm x kk => wordOfByte 0x7 x kk
  | .ldReg x y => wordOfNibbles 0x8 x y 0x0
  | .orReg x y => wordOfNibbles 0x8 x y 0x1
  | .andReg x y => wordOfNibbles 0x8 x y 0x2
  | .xorReg x y => wordOfNibbles 0x8 x y 0x3
  | .addReg x y => wordOfNibbles 0x8 x y 0x4
  | .subReg x y => wordOfNibbles 0x8 x y 0x5
  | .shr x y => wordOfNibbles 0x8 x y 0x6
  | .subnReg x y => wordOfNibbles 0x8 x y 0x7
  | .shl x y => wordOfNibbles 0x8 x y 0xE
  | .sneReg x y n => wordOfNibbles 0x9 x y n
  | .ldI nnn => wordOfAddr 0xA nnn
  | .jpV0 nnn => wordOfAddr 0xB nnn
  | .rnd x kk => wordOfByte 0xC x kk
  | .drw x y n => wordOfNibbles 0xD x y n
  | .nop0 nnn => wordOfAddr 0x0 nnn
  | .nop88 x y => wordOfNibbles 0x8 x y 0x8
  | .nop89 x y => wordOfNibbles 0x8 x y 0x9
  | .nop8A x y => wordOfNibbles 0x8 x y 0xA
  | .nop8B x y => wordOfNibbles 0x8 x y 0xB
  | .nop8C x y => wordOfNibbles 0x8 x y 0xC
  | .nop8D x y => wordOfNibbles 0x8 x y 0xD
  | .nop8F x y => wordOfNibbles 0x8 x y 0xF
  | .nopEx9E x => wordOfByte 0xE x 0x9E
  | .nopExA1 x => wordOfByte 0xE x 0xA1
  | .nopEx x kk => wordOfByte 0xE x kk
  | .nopFx07 x => wordOfByte 0xF x 0x07
  | .nopFx0A x => wordOfByte 0xF x 0x0A
  | .nopFx15 x => wordOfByte 0xF x 0x15
  | .nopFx18 x => wordOfByte 0xF x 0x18
  | .nopFx29 x => wordOfByte 0xF x 0x29
  | .nopFx33 x => wordOfByte 0xF x 0x33
  | .nopFx55 x => wordOfByte 0xF x 0x55
  | .nopFx65 x => wordOfByte 0xF x 0x65
  | .nopFx1E x => wordOfByte 0xF x 0x1E
  | .nopFx x kk => wordOfByte 0xF x kk

/-- The two bytes of an instruction, as they stand in memory (R62, R80). -/
def encodeBytes (i : Instr) : List Byte := [highByte (encode i), lowByte (encode i)]

/-! The opcode table (spec/opcode_table.json): a row matches w when (w AND mask) = match (R89). -/

/-- The match and mask words of an instruction's row. -/
def tableRow : Instr → Word × Word
  | .cls => (0x00E0, 0xFFFF)
  | .ret => (0x00EE, 0xFFFF)
  | .jp _ => (0x1000, 0xF000)
  | .call _ => (0x2000, 0xF000)
  | .seImm _ _ => (0x3000, 0xF000)
  | .sneImm _ _ => (0x4000, 0xF000)
  | .seReg _ _ _ => (0x5000, 0xF000)
  | .ldImm _ _ => (0x6000, 0xF000)
  | .addImm _ _ => (0x7000, 0xF000)
  | .ldReg _ _ => (0x8000, 0xF00F)
  | .orReg _ _ => (0x8001, 0xF00F)
  | .andReg _ _ => (0x8002, 0xF00F)
  | .xorReg _ _ => (0x8003, 0xF00F)
  | .addReg _ _ => (0x8004, 0xF00F)
  | .subReg _ _ => (0x8005, 0xF00F)
  | .shr _ _ => (0x8006, 0xF00F)
  | .subnReg _ _ => (0x8007, 0xF00F)
  | .shl _ _ => (0x800E, 0xF00F)
  | .sneReg _ _ _ => (0x9000, 0xF000)
  | .ldI _ => (0xA000, 0xF000)
  | .jpV0 _ => (0xB000, 0xF000)
  | .rnd _ _ => (0xC000, 0xF000)
  | .drw _ _ _ => (0xD000, 0xF000)
  | .nop0 _ => (0x0000, 0xF000)
  | .nop88 _ _ => (0x8008, 0xF00F)
  | .nop89 _ _ => (0x8009, 0xF00F)
  | .nop8A _ _ => (0x800A, 0xF00F)
  | .nop8B _ _ => (0x800B, 0xF00F)
  | .nop8C _ _ => (0x800C, 0xF00F)
  | .nop8D _ _ => (0x800D, 0xF00F)
  | .nop8F _ _ => (0x800F, 0xF00F)
  | .nopEx9E _ => (0xE09E, 0xF0FF)
  | .nopExA1 _ => (0xE0A1, 0xF0FF)
  | .nopEx _ _ => (0xE000, 0xF000)
  | .nopFx07 _ => (0xF007, 0xF0FF)
  | .nopFx0A _ => (0xF00A, 0xF0FF)
  | .nopFx15 _ => (0xF015, 0xF0FF)
  | .nopFx18 _ => (0xF018, 0xF0FF)
  | .nopFx29 _ => (0xF029, 0xF0FF)
  | .nopFx33 _ => (0xF033, 0xF0FF)
  | .nopFx55 _ => (0xF055, 0xF0FF)
  | .nopFx65 _ => (0xF065, 0xF0FF)
  | .nopFx1E _ => (0xF01E, 0xF0FF)
  | .nopFx _ _ => (0xF000, 0xF000)

/-- The rows matched on a whole word, on a group alone, and on a group with a sub-key. -/
def tableRows : List (Word × Word) :=
  [(0x00E0, 0xFFFF), (0x00EE, 0xFFFF)] ++
  [(0x1000, 0xF000), (0x2000, 0xF000), (0x3000, 0xF000), (0x4000, 0xF000), (0x5000, 0xF000), (0x6000, 0xF000)] ++
  [(0x7000, 0xF000), (0x9000, 0xF000), (0xA000, 0xF000), (0xB000, 0xF000), (0xC000, 0xF000), (0xD000, 0xF000)] ++
  [(0x0000, 0xF000), (0xE000, 0xF000), (0xF000, 0xF000)] ++
  [(0x8000, 0xF00F), (0x8001, 0xF00F), (0x8002, 0xF00F), (0x8003, 0xF00F), (0x8004, 0xF00F), (0x8005, 0xF00F)] ++
  [(0x8006, 0xF00F), (0x8007, 0xF00F), (0x800E, 0xF00F), (0x8008, 0xF00F), (0x8009, 0xF00F), (0x800A, 0xF00F)] ++
  [(0x800B, 0xF00F), (0x800C, 0xF00F), (0x800D, 0xF00F), (0x800F, 0xF00F)] ++
  [(0xE09E, 0xF0FF), (0xE0A1, 0xF0FF), (0xF007, 0xF0FF), (0xF00A, 0xF0FF), (0xF015, 0xF0FF), (0xF018, 0xF0FF)] ++
  [(0xF029, 0xF0FF), (0xF033, 0xF0FF), (0xF055, 0xF0FF), (0xF065, 0xF0FF), (0xF01E, 0xF0FF)]

/-- Whether a row of the table matches a word (R89). -/
def rowMatches (row : Word × Word) (w : Word) : Bool := w &&& row.2 == row.1

/-- How many mask bits a row sets (R89: the row with the most wins). -/
def maskWeight (row : Word × Word) : Nat := (List.range 16).countP fun b => row.2.getLsbD b

/-- The instruction the decoder reads from a word of the table's numbering: bits 15-0 of the one 16-bit word every
instruction is (R80), laid out big-endian; bits above `nbits` are 0, and no row is longer than 16 bits. -/
def decodeTableWord (nbits w : Nat) : Option Instr :=
  if nbits ≤ 16 then
    match decodeBytes [highByte (BitVec.ofNat 16 (w % 2 ^ nbits)), lowByte (BitVec.ofNat 16 (w % 2 ^ nbits))] with
    | .ok (i, _) => some i
    | .error _ => none
  else none

end Sys2Proof
end

