-- ==== Sys2Proof/Machine/State.lean ====
section
/-! DEFINITION. The state of the block (spec rules R20 to R44), the reasons a step stops, and the state after reset (R43). -/

namespace Sys2Proof.Machine

/-- Why the machine stops. A fault outcome is what `step` answers in a FAULTED STATE (FS.CAUSE not 0): the block takes no step
until reset (R120, R203). The instruction that raised the fault has completed its own step, which wrote FS (R202; log entry 3).
All three are safe: the machine stops where the spec says that it stops. -/
inductive Fault where
  /-- FS.CAUSE = 1: a CALL found SP = 16 (R132, R201). Answered by `step`; safe. -/
  | stackOverflow
  /-- FS.CAUSE = 2: a RET found SP = 0 (R130, R201). Answered by `step`; safe. -/
  | stackUnderflow
  /-- FS.CAUSE = 3: a Dxyn past 0xFFF, raised only under SPRITE_ADDR_POLICY = fault (R182, R201). Answered by `step`; safe. -/
  | spriteRange
  deriving DecidableEq, Repr

/-- Why an instruction has no meaning. Neither is ever answered by this hardware's `exec` or `step`. -/
inductive Refusal where
  /-- An arm of `exec` that has no meaning yet, by its mnemonic; safe. No arm is left so. -/
  | notModelled (mnemonic : String)
  /-- VF named as an operand, under the ALTERNATIVE parameter OPERAND_SAMPLING = refuse_vf_operand only (R7, U9): answered by
  `execWith` for that value, never by `exec` or `step`; safe. -/
  | vfOperand
  deriving DecidableEq, Repr

/-- What a handler answers. -/
abbrev Result (σ : Type) := Host.Outcome σ Fault Refusal

/-- The 4096 bytes of memory (R35, R60), held as the cells that differ from what an unlisted address reads as. -/
abbrev Memory := List Host.Cell

/-- One row of the screen: 64 pixels (R33). -/
abbrev ScreenRow := Vector Bool 64

/-- The screen: 32 rows of 64 one-bit pixels (R33). -/
abbrev Screen := Vector ScreenRow 32

/-- A screen with every pixel 0 (R43, R181). -/
def clearScreen : Screen := Vector.replicate 32 (Vector.replicate 64 false)

/-- The state of the block and its attached memory (R20, R35). -/
structure State where
  /-- V0 to VF (R22); VF is also the flag (R31). -/
  v : Vector Byte 16
  /-- The address register I (R27). -/
  i : Word
  /-- The program counter (R24): during a step, the address of the instruction being executed. -/
  pc : Word
  /-- The stack pointer, 0 to 16: the next free slot (R28; log entry 9). -/
  sp : Fin 17
  /-- The 16 return addresses (R29, R30). -/
  stack : Vector Word 16
  /-- The frame buffer (R33, R34). -/
  screen : Screen
  /-- The fault status register FS: CAUSE in bits 1:0, FPC in bits 27:16 (R38). -/
  fs : BitVec 32
  /-- Memory (R35). -/
  mem : Memory
  /-- The model's own counter of random bytes taken (R39; log entry 1): which free value the next Cxkk gets. -/
  draws : Nat
  deriving DecidableEq, Repr

/-- The state right after reset (R43, R231): no program is loaded (R233), and memory lists nothing, since every address holds
its reset byte. `draws` is the model's own field (log entry 1). -/
def State.reset : State where
  v := Vector.replicate 16 0
  i := 0
  pc := 0x200
  sp := 0
  stack := Vector.replicate 16 0
  screen := clearScreen
  fs := 0
  mem := []
  draws := 0

end Sys2Proof.Machine
end

