-- ==== Sys2Proof/Machine/Ops.lean ====
section
/-! DEFINITION. The named operations over the state (spec rule R11): memory reads and the host's memory writes, fetch, the
registers, pc, the stack, the screen, FS, the random source, and raising a fault (R202), which is the block's only exception.
There is no return from it: only reset leaves the faulted state (R207, R230; hostReset in HostPort.lean). -/

namespace Sys2Proof.Machine

/-! ### Memory (R35, R60, R61, R66) -/

/-- What an address that memory does not list reads as: its byte after reset, FONT below 0x050 and 0x00 above (R43, R231). -/
def unlistedByte (a : Nat) : Byte := font.getD a 0

/-- The byte that memory holds at an address. -/
def Memory.byteAt : Memory → Nat → Byte
  | [], a => unlistedByte a
  | (k, b) :: rest, a => if k = a then b else Memory.byteAt rest a

/-- Put a cell in front of memory, unless its byte is what its address reads as unlisted. -/
def Memory.cons (a : Nat) (b : Byte) (m : Memory) : Memory := if b = unlistedByte a then m else (a, b) :: m

/-- Store a byte, keeping the addresses rising and no cell at its reset byte. -/
def Memory.store : Memory → Nat → Byte → Memory
  | [], a, b => Memory.cons a b []
  | (k, c) :: rest, a, b =>
    if a < k then Memory.cons a b ((k, c) :: rest)
    else if a = k then Memory.cons a b rest
    else (k, c) :: Memory.store rest a b

/-- Every listed address is above `lo` or `lo` itself, below 0x1000, rising, and no cell holds its reset byte. -/
def Memory.wfFrom : Nat → Memory → Bool
  | _, [] => true
  | lo, (k, b) :: rest => decide (lo ≤ k) && decide (k < 0x1000) && (b != unlistedByte k) && Memory.wfFrom (k + 1) rest

/-- The canonical form of memory: equal memories are equal lists. -/
def Memory.wf (m : Memory) : Bool := Memory.wfFrom 0 m

/-- A number as an address: reduced modulo 0x1000 (R61). -/
def toAddr (n : Nat) : Addr := BitVec.ofNat 12 n

/-- MemRead(addr, 1) (R11). -/
def memRead (s : State) (a : Addr) : Byte := s.mem.byteAt a.toNat

/-- A byte written to memory. No instruction does this (R64): the host's writes go through it (R210). -/
def memWrite (a : Addr) (b : Byte) (s : State) : State := { s with mem := s.mem.store a.toNat b }

/-- fetch (R62, R111): the big-endian word at pc, the second byte's address wrapping from 0xFFF to 0x000. For a pc of 0x1000 or
more, which no run reaches, the first address is reduced as well (R61; log entry 4). -/
def fetch (s : State) : Word :=
  joinBytes (memRead s (toAddr s.pc.toNat)) (memRead s (toAddr (s.pc.toNat + 1)))

/-! ### General registers (R22) -/

/-- V[x]. -/
def readV (s : State) (x : RegIdx) : Byte := s.v[x.toNat]'x.isLt

/-- V[x] <- b. -/
def writeV (x : RegIdx) (b : Byte) (s : State) : State := { s with v := s.v.set x.toNat b x.isLt }

/-! ### pc and I (R24, R27) -/

/-- pc <- n mod 0x1000: every value written to pc is masked to 12 bits (R24; decision D8). -/
def writePc (n : Nat) (s : State) : State := { s with pc := BitVec.ofNat 16 (n % 0x1000) }

/-- pc <- (pc + 2) mod 0x1000: on to the next instruction (R25). -/
def advance (s : State) : State := writePc (s.pc.toNat + 2) s

/-- A skip (R133): two instruction widths when its condition holds, one when it does not. -/
def skipIf (c : Bool) (s : State) : State := writePc (s.pc.toNat + if c then 4 else 2) s

/-- I <- w. -/
def writeI (w : Word) (s : State) : State := { s with i := w }

/-! ### The stack (R28, R29, R30) -/

/-- The stack entry at a slot. -/
def stackEntry (s : State) (k : Fin 16) : Word := s.stack[k.val]'k.isLt

/-- Stack[SP] <- w; SP <- SP + 1, given that the stack is not full (R132). -/
def pushEntry (w : Word) (s : State) (h : s.sp.val < 16) : State :=
  { s with stack := s.stack.set s.sp.val w h, sp := ⟨s.sp.val + 1, by omega⟩ }

/-- The entry a return pops, Stack[SP - 1], given that the stack is not empty (R130). -/
def topEntry (s : State) (h : 0 < s.sp.val) : Word := s.stack[s.sp.val - 1]'(by omega)

/-- SP <- SP - 1; the entry keeps its value (R29, R130). -/
def dropEntry (s : State) : State := { s with sp := ⟨s.sp.val - 1, by omega⟩ }

/-! ### The screen (R33, R180) -/

/-- Screen(c, r). -/
def Screen.pixel (scr : Screen) (c : Fin 64) (r : Fin 32) : Bool := (scr[r.val]'r.isLt)[c.val]'c.isLt

/-- Screen(c, r) <- b. -/
def Screen.setPixel (scr : Screen) (c : Fin 64) (r : Fin 32) (b : Bool) : Screen :=
  scr.set r.val ((scr[r.val]'r.isLt).set c.val b c.isLt) r.isLt

/-- A column number reduced modulo 64 (R180). -/
def toColumn (n : Nat) : Fin 64 := ⟨n % 64, by omega⟩

/-- A row number reduced modulo 32 (R180). -/
def toRow (n : Nat) : Fin 32 := ⟨n % 32, by omega⟩

/-- The frame buffer replaced. -/
def writeScreen (scr : Screen) (s : State) : State := { s with screen := scr }

/-! ### The random source (R39) -/

/-- Rand(): the byte the source offers this step (R11, R166). Free (log entry 1). -/
def randOffered (s : State) : Byte := Config.randByte s.draws

/-- The byte is taken: the next draw is another one (R39; decision D12). -/
def takeRand (s : State) : State := { s with draws := s.draws + 1 }

/-! ### FS and raising a fault (R38, R201, R202) -/

/-- FS.CAUSE = FS[1:0]. -/
def fsCause (fs : BitVec 32) : BitVec 2 := fs.extractLsb' 0 2

/-- FS.FPC = FS[27:16]. -/
def fsFpc (fs : BitVec 32) : Addr := fs.extractLsb' 16 12

/-- The FS word with a cause and an address, its unused bits 0 (R38). -/
def fsWord (cause : BitVec 2) (fpc : Addr) : BitVec 32 := (fpc.zeroExtend 32 <<< 16) ||| cause.zeroExtend 32

/-- The CAUSE code of a fault (R38, R201). -/
def causeCode : Fault → BitVec 2
  | .stackOverflow => 1
  | .stackUnderflow => 2
  | .spriteRange => 3

/-- The fault a CAUSE code stands for; 0 is none (R38). -/
def faultOfCause (c : BitVec 2) : Option Fault :=
  match c.toNat with
  | 0 => none
  | 1 => some .stackOverflow
  | 2 => some .stackUnderflow
  | _ => some .spriteRange

/-- The fault of a faulted state, none where FS.CAUSE = 0 (R120). -/
def pendingFault (s : State) : Option Fault := faultOfCause (fsCause s.fs)

/-- raise Fault(cause) (R202): FS.CAUSE and FS.FPC are written and nothing else changes. -/
def raiseFault (f : Fault) (s : State) : State := { s with fs := fsWord (causeCode f) (toAddr s.pc.toNat) }

/-! ### The no-op default (R117) -/

/-- NOP_DEFAULT: pc <- (pc + 2) mod 0x1000 and nothing else. -/
def nopDefault (s : State) : State := advance s

end Sys2Proof.Machine
end

