-- ==== Sys2Proof/Machine/Operands.lean ====
section
/-! DEFINITION. The operand forms of the block (spec rule R83). Each is read from the state before the step (R12; decision D1):
a meaning reads its operands from the state it is given and only then writes. Register operands are read by `readV` and the
row count `n` by its number. Nothing is sign-extended, scaled or shifted. -/

namespace Sys2Proof.Machine

/-- The operands a = V[x] and b = V[y], sampled together (R12, R150). -/
def sampleXY (s : State) (x y : RegIdx) : Byte × Byte := (readV s x, readV s y)

/-- nnn, zero-extended to 16 bits where it is written to pc, I or a stack entry (R83). -/
def addrOperand (nnn : Addr) : Word := nnn.zeroExtend 16

/-- The return address of a call, (pc + 2) mod 0x1000 (R132; decision D9). -/
def returnAddress (s : State) : Word := BitVec.ofNat 16 ((s.pc.toNat + 2) % 0x1000)

/-- The offset of Bnnn is always V0 (R138). -/
def offsetOperand (s : State) : Byte := readV s 0

end Sys2Proof.Machine
end

