-- ==== Sys2Proof/Machine/Flags.lean ====
section
/-! DEFINITION. The flag and result computations (spec rules R31, R157, R160 to R164), each over exact unsigned numbers and
narrowed at the end (R10), and the shape of every flag-setting handler: the result to V[x], then the flag to VF, then pc
(R150; conflict C1). -/

namespace Sys2Proof.Machine

/-- bool(c) as a byte (R10). -/
def boolByte (c : Bool) : Byte := if c then 1 else 0

/-- (a + b) mod 256 (R157). -/
def addByte (a b : Byte) : Byte := BitVec.ofNat 8 (a.toNat + b.toNat)

/-- (a - b) mod 256, that is (a + 256 - b) mod 256 (R157). -/
def subByte (a b : Byte) : Byte := BitVec.ofNat 8 (a.toNat + 256 - b.toNat)

/-- The carry of a + b: the sum is above 255 (R160). -/
def carryFlag (a b : Byte) : Bool := decide (255 < a.toNat + b.toNat)

/-- The no-borrow flag of a - b, strict: equal operands give 0 (R161, R163). -/
def noBorrowFlag (a b : Byte) : Bool := decide (b.toNat < a.toNat)

/-- The bit a right shift moves out, bit 0 (R162). -/
def lowBitFlag (a : Byte) : Bool := a.getLsbD 0

/-- The bit a left shift moves out, bit 7 (R164). -/
def highBitFlag (a : Byte) : Bool := a.getLsbD 7

/-- V[x] <- r; pc <- (pc + 2) mod 0x1000: a handler that sets no flag (R151 to R156, R166). -/
def finishPlain (x : RegIdx) (r : Byte) (s : State) : State := advance (writeV x r s)

/-- V[x] <- r; V[0xF] <- flag; pc <- (pc + 2) mod 0x1000: a handler that sets the flag, last (R150). -/
def finishFlag (x : RegIdx) (r : Byte) (flag : Bool) (s : State) : State :=
  advance (writeV VF (boolByte flag) (writeV x r s))

end Sys2Proof.Machine
end

