-- ==== Sys2Proof/Machine/Alu.lean ====
section
/-! DEFINITION. The ALU instructions (spec file 42, rules R151 to R166). -/

namespace Sys2Proof.Machine

/-- LD Vx, kk, 6xkk (R151). -/
def execLdImm (x : RegIdx) (kk : Byte) (s : State) : Result State := .next (finishPlain x kk s)

/-- ADD Vx, kk, 7xkk (R152): no flag. -/
def execAddImm (x : RegIdx) (kk : Byte) (s : State) : Result State := .next (finishPlain x (addByte (readV s x) kk) s)

/-- LD Vx, Vy, 8xy0 (R153). -/
def execLdReg (x y : RegIdx) (s : State) : Result State := .next (finishPlain x (readV s y) s)

/-- OR Vx, Vy, 8xy1 (R154): no flag. -/
def execOrReg (x y : RegIdx) (s : State) : Result State :=
  let (a, b) := sampleXY s x y
  .next (finishPlain x (a ||| b) s)

/-- AND Vx, Vy, 8xy2 (R155): no flag. -/
def execAndReg (x y : RegIdx) (s : State) : Result State :=
  let (a, b) := sampleXY s x y
  .next (finishPlain x (a &&& b) s)

/-- XOR Vx, Vy, 8xy3 (R156): no flag. -/
def execXorReg (x y : RegIdx) (s : State) : Result State :=
  let (a, b) := sampleXY s x y
  .next (finishPlain x (a ^^^ b) s)

/-- ADD Vx, Vy, 8xy4 (R160): VF = carry. -/
def execAddReg (x y : RegIdx) (s : State) : Result State :=
  let (a, b) := sampleXY s x y
  .next (finishFlag x (addByte a b) (carryFlag a b) s)

/-- SUB Vx, Vy, 8xy5 (R161): VF = (a > b). -/
def execSubReg (x y : RegIdx) (s : State) : Result State :=
  let (a, b) := sampleXY s x y
  .next (finishFlag x (subByte a b) (noBorrowFlag a b) s)

/-- SHR Vx, 8xy6 (R162): VF = bit 0; y is decoded but not used (decision D4). -/
def execShr (x _y : RegIdx) (s : State) : Result State :=
  let a := readV s x
  .next (finishFlag x (a >>> 1) (lowBitFlag a) s)

/-- SUBN Vx, Vy, 8xy7 (R163): VF = (b > a). -/
def execSubnReg (x y : RegIdx) (s : State) : Result State :=
  let (a, b) := sampleXY s x y
  .next (finishFlag x (subByte b a) (noBorrowFlag b a) s)

/-- SHL Vx, 8xyE (R164): VF = bit 7; y is decoded but not used (decision D4). -/
def execShl (x _y : RegIdx) (s : State) : Result State :=
  let a := readV s x
  .next (finishFlag x (a <<< 1) (highBitFlag a) s)

/-- LD I, nnn, Annn (R165). -/
def execLdI (nnn : Addr) (s : State) : Result State := .next (advance (writeI (addrOperand nnn) s))

/-- RND Vx, kk, Cxkk (R166): one byte is taken from the random source, even when kk = 0 (decision D12). -/
def execRnd (x : RegIdx) (kk : Byte) (s : State) : Result State :=
  .next (finishPlain x (randOffered s &&& kk) (takeRand s))

end Sys2Proof.Machine
end

