-- ==== Sys2Proof/Machine/ControlFlow.lean ====
section
/-! DEFINITION. The control-flow instructions (spec file 41, rules R130 to R138). -/

namespace Sys2Proof.Machine

/-- RET, 00EE (R130): SP = 0 raises StackUnderflow; else SP <- SP - 1 and pc <- Stack[SP]. Like every value written to pc the
entry is masked to 12 bits (R24), which changes no entry a call has written (R29; log entry 4). -/
def execRet (s : State) : Result State :=
  if h : 0 < s.sp.val then .next (writePc (topEntry s h).toNat (dropEntry s))
  else .next (raiseFault .stackUnderflow s)

/-- JP nnn, 1nnn (R131). -/
def execJp (nnn : Addr) (s : State) : Result State := .next (writePc (addrOperand nnn).toNat s)

/-- CALL nnn, 2nnn (R132): SP = 16 raises StackOverflow; else the return address is pushed and pc <- nnn. -/
def execCall (nnn : Addr) (s : State) : Result State :=
  if h : s.sp.val < 16 then .next (writePc (addrOperand nnn).toNat (pushEntry (returnAddress s) s h))
  else .next (raiseFault .stackOverflow s)

/-- SE Vx, kk, 3xkk (R134). -/
def execSeImm (x : RegIdx) (kk : Byte) (s : State) : Result State := .next (skipIf (readV s x == kk) s)

/-- SNE Vx, kk, 4xkk (R135). -/
def execSneImm (x : RegIdx) (kk : Byte) (s : State) : Result State := .next (skipIf (readV s x != kk) s)

/-- SE Vx, Vy, 5xyn (R136): n is ignored. -/
def execSeReg (x y : RegIdx) (_n : Nibble) (s : State) : Result State :=
  .next (skipIf ((sampleXY s x y).1 == (sampleXY s x y).2) s)

/-- SNE Vx, Vy, 9xyn (R137): n is ignored. -/
def execSneReg (x y : RegIdx) (_n : Nibble) (s : State) : Result State :=
  .next (skipIf ((sampleXY s x y).1 != (sampleXY s x y).2) s)

/-- JP V0, nnn, Bnnn (R138): pc <- (V[0] + nnn) mod 0x1000. -/
def execJpV0 (nnn : Addr) (s : State) : Result State :=
  .next (writePc ((offsetOperand s).toNat + (addrOperand nnn).toNat) s)

end Sys2Proof.Machine
end

