-- ==== Sys2Proof/Machine/Display.lean ====
section
/-! DEFINITION. The display instructions and the sprite engine (spec file 43, rules R180 to R182). -/

namespace Sys2Proof.Machine

/-- CLS, 00E0 (R181). -/
def execCls (s : State) : Result State := .next (advance (writeScreen clearScreen s))

/-- One bit of a sprite row (R182): bit `b` of the byte, 0 being the most significant, is XORed into the pixel at column
(cx + b) mod 64 of the row, and a set pixel turned off is OR-accumulated into the collision flag. -/
def drawBit (cx : Nat) (row : Fin 32) (byte : Byte) (acc : Screen × Bool) (b : Nat) : Screen × Bool :=
  let bit := byte.getLsbD (7 - b)
  let c := toColumn (cx + b)
  let old := acc.1.pixel c row
  (acc.1.setPixel c row (old ^^ bit), acc.2 || (old && bit))

/-- The eight bits of one sprite row, most significant first (R182). -/
def drawByte (cx : Nat) (row : Fin 32) (byte : Byte) (acc : Screen × Bool) : Screen × Bool :=
  (List.range 8).foldl (drawBit cx row byte) acc

/-- Sprite row `r`: the byte at (base + r) mod 0x1000, drawn on row (cy + r) mod 32 (R182; decision D5). -/
def drawRow (s : State) (base cx cy : Nat) (acc : Screen × Bool) (r : Nat) : Screen × Bool :=
  drawByte cx (toRow (cy + r)) (memRead s (toAddr (base + r))) acc

/-- The sprite loop of R182: rows 0 to n - 1, the collision flag starting at 0. -/
def drawSprite (s : State) (base cx cy n : Nat) : Screen × Bool :=
  (List.range n).foldl (drawRow s base cx cy) (s.screen, false)

/-- Whether a draw of n rows from `base` reads past 0xFFF (R182, R201). -/
def spritePastEnd (base n : Nat) : Bool := decide (1 ≤ n ∧ 0xFFF < base + n - 1)

/-- Dxyn with SPRITE_ADDR_POLICY as its argument (R182). -/
def execDrwWith (policy : SpriteAddrPolicy) (x y : RegIdx) (n : Nibble) (s : State) : Result State :=
  let (cx, cy) := sampleXY s x y
  if policy = .fault ∧ spritePastEnd s.i.toNat n.toNat = true then .next (raiseFault .spriteRange s)
  else
    let (scr, col) := drawSprite s s.i.toNat cx.toNat cy.toNat n.toNat
    .next (advance (writeV VF (boolByte col) (writeScreen scr s)))

/-- DRW Vx, Vy, n, Dxyn (R182), under this hardware's SPRITE_ADDR_POLICY (R7: wrap). -/
def execDrw (x y : RegIdx) (n : Nibble) (s : State) : Result State := execDrwWith params.spriteAddrPolicy x y n s

end Sys2Proof.Machine
end

