-- ==== Sys2Proof/Machine/NopDefault.lean ====
section
/-! DEFINITION. The 21 rows of the opcode table that take the no-op default (spec rules R117, R118, R119): each advances pc by
one instruction width and changes nothing else. No row reads the keyboard or a timer, or writes memory or I. -/

namespace Sys2Proof.Machine

/-- 0nnn other than 00E0 and 00EE (R119). -/
def execNop0 (_nnn : Addr) (s : State) : Result State := .next (nopDefault s)

/-- 8xy8 (R119). -/
def execNop88 (_x _y : RegIdx) (s : State) : Result State := .next (nopDefault s)

/-- 8xy9 (R119). -/
def execNop89 (_x _y : RegIdx) (s : State) : Result State := .next (nopDefault s)

/-- 8xyA (R119). -/
def execNop8A (_x _y : RegIdx) (s : State) : Result State := .next (nopDefault s)

/-- 8xyB (R119). -/
def execNop8B (_x _y : RegIdx) (s : State) : Result State := .next (nopDefault s)

/-- 8xyC (R119). -/
def execNop8C (_x _y : RegIdx) (s : State) : Result State := .next (nopDefault s)

/-- 8xyD (R119). -/
def execNop8D (_x _y : RegIdx) (s : State) : Result State := .next (nopDefault s)

/-- 8xyF (R119). -/
def execNop8F (_x _y : RegIdx) (s : State) : Result State := .next (nopDefault s)

/-- Ex9E, the key-press skip, out of scope (R118): never a skip. -/
def execNopEx9E (_x : RegIdx) (s : State) : Result State := .next (nopDefault s)

/-- ExA1, the key-not-pressed skip, out of scope (R118): never a skip. -/
def execNopExA1 (_x : RegIdx) (s : State) : Result State := .next (nopDefault s)

/-- every other Exkk (R118). -/
def execNopEx (_x : RegIdx) (_kk : Byte) (s : State) : Result State := .next (nopDefault s)

/-- Fx07, the delay timer read, out of scope (R118). -/
def execNopFx07 (_x : RegIdx) (s : State) : Result State := .next (nopDefault s)

/-- Fx0A, the key wait, out of scope (R118): the step does not wait. -/
def execNopFx0A (_x : RegIdx) (s : State) : Result State := .next (nopDefault s)

/-- Fx15, the delay timer write, out of scope (R118). -/
def execNopFx15 (_x : RegIdx) (s : State) : Result State := .next (nopDefault s)

/-- Fx18, the sound timer write, out of scope (R118). -/
def execNopFx18 (_x : RegIdx) (s : State) : Result State := .next (nopDefault s)

/-- Fx29, the font address, out of scope (R118): I is unchanged. -/
def execNopFx29 (_x : RegIdx) (s : State) : Result State := .next (nopDefault s)

/-- Fx33, the BCD store, out of scope (R118): memory is unchanged. -/
def execNopFx33 (_x : RegIdx) (s : State) : Result State := .next (nopDefault s)

/-- Fx55, the bulk store, out of scope (R118): memory is unchanged. -/
def execNopFx55 (_x : RegIdx) (s : State) : Result State := .next (nopDefault s)

/-- Fx65, the bulk load, out of scope (R118): registers are unchanged. -/
def execNopFx65 (_x : RegIdx) (s : State) : Result State := .next (nopDefault s)

/-- Fx1E, not mentioned by the source (R119): I is unchanged. -/
def execNopFx1E (_x : RegIdx) (s : State) : Result State := .next (nopDefault s)

/-- every other Fxkk (R118). -/
def execNopFx (_x : RegIdx) (_kk : Byte) (s : State) : Result State := .next (nopDefault s)

end Sys2Proof.Machine
end

