-- ==== Sys2Proof/Machine/Dispatch.lean ====
section
/-! DEFINITION. Dispatch (spec rules R114, R116): one handler per instruction, and no instruction without one. -/

namespace Sys2Proof.Machine

def exec (i : Instr) (s : State) : Host.Outcome State Fault Refusal :=
  match i with
  | .cls => Sys2Proof.Machine.execCls s
  | .ret => Sys2Proof.Machine.execRet s
  | .jp nnn => Sys2Proof.Machine.execJp nnn s
  | .call nnn => Sys2Proof.Machine.execCall nnn s
  | .seImm x kk => Sys2Proof.Machine.execSeImm x kk s
  | .sneImm x kk => Sys2Proof.Machine.execSneImm x kk s
  | .seReg x y n => Sys2Proof.Machine.execSeReg x y n s
  | .ldImm x kk => Sys2Proof.Machine.execLdImm x kk s
  | .addImm x kk => Sys2Proof.Machine.execAddImm x kk s
  | .ldReg x y => Sys2Proof.Machine.execLdReg x y s
  | .orReg x y => Sys2Proof.Machine.execOrReg x y s
  | .andReg x y => Sys2Proof.Machine.execAndReg x y s
  | .xorReg x y => Sys2Proof.Machine.execXorReg x y s
  | .addReg x y => Sys2Proof.Machine.execAddReg x y s
  | .subReg x y => Sys2Proof.Machine.execSubReg x y s
  | .shr x y => Sys2Proof.Machine.execShr x y s
  | .subnReg x y => Sys2Proof.Machine.execSubnReg x y s
  | .shl x y => Sys2Proof.Machine.execShl x y s
  | .sneReg x y n => Sys2Proof.Machine.execSneReg x y n s
  | .ldI nnn => Sys2Proof.Machine.execLdI nnn s
  | .jpV0 nnn => Sys2Proof.Machine.execJpV0 nnn s
  | .rnd x kk => Sys2Proof.Machine.execRnd x kk s
  | .drw x y n => Sys2Proof.Machine.execDrw x y n s
  | .nop0 nnn => Sys2Proof.Machine.execNop0 nnn s
  | .nop88 x y => Sys2Proof.Machine.execNop88 x y s
  | .nop89 x y => Sys2Proof.Machine.execNop89 x y s
  | .nop8A x y => Sys2Proof.Machine.execNop8A x y s
  | .nop8B x y => Sys2Proof.Machine.execNop8B x y s
  | .nop8C x y => Sys2Proof.Machine.execNop8C x y s
  | .nop8D x y => Sys2Proof.Machine.execNop8D x y s
  | .nop8F x y => Sys2Proof.Machine.execNop8F x y s
  | .nopEx9E x => Sys2Proof.Machine.execNopEx9E x s
  | .nopExA1 x => Sys2Proof.Machine.execNopExA1 x s
  | .nopEx x kk => Sys2Proof.Machine.execNopEx x kk s
  | .nopFx07 x => Sys2Proof.Machine.execNopFx07 x s
  | .nopFx0A x => Sys2Proof.Machine.execNopFx0A x s
  | .nopFx15 x => Sys2Proof.Machine.execNopFx15 x s
  | .nopFx18 x => Sys2Proof.Machine.execNopFx18 x s
  | .nopFx29 x => Sys2Proof.Machine.execNopFx29 x s
  | .nopFx33 x => Sys2Proof.Machine.execNopFx33 x s
  | .nopFx55 x => Sys2Proof.Machine.execNopFx55 x s
  | .nopFx65 x => Sys2Proof.Machine.execNopFx65 x s
  | .nopFx1E x => Sys2Proof.Machine.execNopFx1E x s
  | .nopFx x kk => Sys2Proof.Machine.execNopFx x kk s

end Sys2Proof.Machine
end

