-- ==== Sys2Proof/Machine/Step.lean ====
section
/-! DEFINITION. One step (spec rule R110), and the placing of an instruction where the next step fetches it. -/

namespace Sys2Proof.Machine

/-- step (R110): a faulted state takes no step, which the model answers as a fault (R120, R203); any other state fetches,
decodes and runs one handler. -/
def step (s : State) : Host.Outcome State Fault Refusal :=
  match pendingFault s with
  | some f => .fault f
  | none => exec (decode (fetch s)) s

/-- The state with the instruction word `w` (its bits above `nbits` zero) stored big-endian at pc, where the next step fetches
(R62). A faulted state takes no step, so there FS is cleared as well; otherwise nothing but the two bytes changes (log
entry 7). -/
def State.withFetchWord (s : State) (nbits w : Nat) : State :=
  let word : Word := BitVec.ofNat 16 (w % 2 ^ nbits)
  let s' := memWrite (toAddr (s.pc.toNat + 1)) (lowByte word) (memWrite (toAddr s.pc.toNat) (highByte word) s)
  if (pendingFault s).isSome then { s' with fs := 0 } else s'

end Sys2Proof.Machine
end

