-- ==== Sys2Proof/Machine/HostPort.lean ====
section
/-! DEFINITION. What the host can do to the block between steps (spec rules R40, R210, R230, R234), and what it reads back. The
host's duties (reset before the first step, no memory write after it) are not tracked by the state (log entry 6). -/

namespace Sys2Proof.Machine

/-- Put a list of bytes into memory from an address upward. -/
def placeBytes : Nat → List Byte → State → State
  | _, [], s => s
  | a, b :: rest, s => placeBytes (a + 1) rest (memWrite (toAddr a) b s)

/-- `reset`, asserted between steps (R230, R231): the reset state, whatever the state was, faulted or not. The random source
outlives a reset (R39: one process-lifetime source), so the bytes it gave are not offered again (log entry 5). -/
def hostReset (s : State) : State := { State.reset with draws := s.draws }

/-- Reset with FONT as an argument (R37, R44; decision D22): the reset state, with its 80 bytes at 0x000 to 0x04F. -/
def resetWithFont (bytes : Vector Byte 80) : State := placeBytes 0 bytes.toList State.reset

/-- `host_mem_write` (R40, R210): one byte of memory. -/
def hostMemWrite (a : Addr) (b : Byte) (s : State) : State := memWrite a b s

/-- Program load (R234; decision D17): PROGRAM, at most 0xE00 bytes, at 0x200 upward; other bytes keep their values. A longer
image does not fit and is no load. -/
def loadProgram (image : List Byte) (s : State) : Option State :=
  if image.length ≤ 0xE00 then some (placeBytes 0x200 image s) else none

/-- The `screen` port (R34, R40): the frame buffer, as a snapshot between steps. -/
def screenPort (s : State) : Screen := s.screen

/-- The `fault` port (R38, R40): the FS register, its unused bits reading as 0. -/
def faultPort (s : State) : BitVec 32 := fsWord (fsCause s.fs) (fsFpc s.fs)

end Sys2Proof.Machine
end

