-- ==== Sys2Proof/Machine/Run.lean ====
section
/-! DEFINITION. A run and its end (spec rule R121; decision D20): the host's steps, up to a step count the host chooses or up to
an address the host watches. The block has no halt; a run ends where the host stops, or at a fault (R120). -/

namespace Sys2Proof.Machine

/-- How a run ends, with the state in which it ends. -/
inductive RunEnd where
  /-- The host stopped requesting steps, in a state that is not faulted (R121, R210): the normal end. -/
  | stopped (s : State)
  /-- A fault ended the run (R120, R203): never a normal end. The state is the faulted one, which stays until reset. -/
  | faulted (f : Fault) (s : State)
  /-- A step was refused. No step of this hardware is. -/
  | refused (r : Refusal) (s : State)
  deriving DecidableEq, Repr

/-- The end of a run in which the host requests no further step: normal, unless the state is a faulted one (R120, R121). -/
def stopHere (s : State) : RunEnd :=
  match pendingFault s with
  | some f => .faulted f s
  | none => .stopped s

/-- A run of `n` steps, the count chosen by the host (R121). Steps requested in a faulted state are not taken. -/
def runFor : Nat → State → RunEnd
  | 0, s => stopHere s
  | n + 1, s =>
    match step s with
    | .next t => runFor n t
    | .fault f => .faulted f s
    | .refused r => .refused r s

/-- A run that the host ends where pc reaches the address it watches (R121), looked at before each step, the first included
(log entry 14). The host waits for at most `limit` steps; none where neither the address nor a fault comes by then. -/
def runTo (watch : Addr) : Nat → State → Option RunEnd
  | limit, s =>
    if (pendingFault s).isSome ∨ s.pc = watch.zeroExtend 16 then some (stopHere s)
    else
      match limit with
      | 0 => none
      | n + 1 =>
        match step s with
        | .next t => runTo watch n t
        | .fault f => some (.faulted f s)
        | .refused r => some (.refused r s)

end Sys2Proof.Machine
end

