-- ==== Sys2Proof/Machine/Variants.lean ====
section
/-! DEFINITION. The block with the parameters of spec rule R7 as an argument: GROUP0_KEY, SPRITE_ADDR_POLICY and
OPERAND_SAMPLING at any of their values. `step` is this step at the values of this hardware. -/

namespace Sys2Proof.Machine

/-- Whether an instruction names VF as an operand that OPERAND_SAMPLING = refuse_vf_operand refuses (R7): 8xy5, 8xy6, 8xy7,
8xyE and Dxyn with x = F or y = F. -/
def namesVfOperand : Instr → Bool
  | .subReg x y | .shr x y | .subnReg x y | .shl x y | .drw x y _ => x == VF || y == VF
  | _ => false

/-- The handlers under given parameters. -/
def execWith (p : Params) (i : Instr) (s : State) : Result State :=
  if p.operandSampling = .refuseVfOperand ∧ namesVfOperand i = true then .refused .vfOperand
  else
    match i with
    | .drw x y n => execDrwWith p.spriteAddrPolicy x y n s
    | _ => exec i s

/-- One step under given parameters (R110). -/
def stepWith (p : Params) (s : State) : Result State :=
  match pendingFault s with
  | some f => .fault f
  | none => execWith p (decodeWith p.group0Key (fetch s)) s

end Sys2Proof.Machine
end

