-- ==== Sys2Proof/Safety.lean ====
section
/-! DEFINITION. The terms claims are stated in: the invariant of the block, the faulted state, what a step keeps, and the states
a host that follows spec rule R210 can bring about. -/

namespace Sys2Proof.Machine

/-- No fault is recorded: FS.CAUSE = 0 (R38, R203). -/
def State.Unfaulted (s : State) : Prop := fsCause s.fs = 0

/-- FS as rule R38 lets it read under SPRITE_ADDR_POLICY = wrap: unused bits 0, CAUSE never 3, FPC 0 while CAUSE = 0. -/
def FsLegal (fs : BitVec 32) : Prop :=
  fs &&& 0xF000FFFC#32 = 0 ∧ fsCause fs ≠ 3 ∧ (fsCause fs = 0 → fsFpc fs = 0)

/-- The invariant of the block: pc below 0x1000 (R24, R25), I at most 0xFFF (R27), every stack entry below 0x1000 (R29), FS
legal (R38), and memory in its canonical form. SP in 0 to 16 (R28) holds by its type. -/
structure State.Inv (s : State) : Prop where
  pc_lt : s.pc.toNat < 0x1000
  i_lt : s.i.toNat < 0x1000
  stack_lt : ∀ k : Fin 16, (stackEntry s k).toNat < 0x1000
  fs_legal : FsLegal s.fs
  mem_wf : s.mem.wf = true

/-- What a handler leaves alone: every register but those listed, I, SP, every stack entry, every pixel, FS, every byte of
memory, and the random source. pc is not spoken of. -/
structure KeepsAllBut (written : List RegIdx) (s t : State) : Prop where
  regs : ∀ r, r ∉ written → readV t r = readV s r
  i : t.i = s.i
  sp : t.sp = s.sp
  stack : ∀ k, stackEntry t k = stackEntry s k
  screen : ∀ c r, t.screen.pixel c r = s.screen.pixel c r
  fs : t.fs = s.fs
  mem : ∀ a, memRead t a = memRead s a
  draws : t.draws = s.draws

/-- pc moved on by `k` bytes modulo 0x1000 (R25). -/
def PcMoved (k : Nat) (s t : State) : Prop := t.pc.toNat = (s.pc.toNat + k) % 0x1000

/-- The whole effect of the no-op default (R117): pc on by 2 and nothing else. -/
def OnlyAdvances (s t : State) : Prop := PcMoved 2 s t ∧ KeepsAllBut [] s t

/-- The registers an instruction may write, by the table of rule R23. -/
def writesV : Instr → List RegIdx
  | .ldImm x _ | .addImm x _ | .ldReg x _ | .orReg x _ | .andReg x _ | .xorReg x _ | .rnd x _ => [x]
  | .addReg x _ | .subReg x _ | .shr x _ | .subnReg x _ | .shl x _ => [x, VF]
  | .drw _ _ _ => [VF]
  | _ => []

/-- The registers an instruction reads: those it names as operands, and V0 for Bnnn; none is read implicitly besides (R22,
R31, R139). The y of a shift is not read (R162, R164), nor is the x of a no-op row. -/
def readsV : Instr → List RegIdx
  | .seImm x _ | .sneImm x _ | .addImm x _ | .shr x _ | .shl x _ => [x]
  | .seReg x y _ | .sneReg x y _ | .orReg x y | .andReg x y | .xorReg x y | .addReg x y | .subReg x y | .subnReg x y
  | .drw x y _ => [x, y]
  | .ldReg _ y => [y]
  | .jpV0 _ => [0]
  | _ => []

/-- The instructions that write VF as a flag, by the table of rule R31. -/
def setsFlag : Instr → Bool
  | .addReg _ _ | .subReg _ _ | .shr _ _ | .subnReg _ _ | .shl _ _ | .drw _ _ _ => true
  | _ => false

/-- A change made to the next state of an outcome, a fault or a refusal staying as it is. -/
def mapNext (f : State → State) : Result State → Result State
  | .next s => .next (f s)
  | .fault r => .fault r
  | .refused r => .refused r

/-- Runs of steps along which SP never falls below `d`: `RunAbove d s t` leads from `s` to `t`, both ends counted (R133: until
the return at this stack depth). -/
inductive RunAbove (d : Nat) : State → State → Prop where
  | refl {s} : d ≤ s.sp.val → RunAbove d s s
  | step {s t u} : RunAbove d s t → Sys2Proof.Machine.step t = .next u → d ≤ u.sp.val → RunAbove d s u

/-- Where a host that follows rule R210 stands: after a reset and before the first step, or after a step. -/
inductive Phase where
  | loading
  | running
  deriving DecidableEq, Repr

/-- What such a host can bring about (R210, R235): reset before anything else; memory writes and program loads only between a
reset and the first step (R40, R68, R234); steps; and a new reset at any time between steps, faulted or not (R230). -/
inductive Reaches : Phase → State → Prop where
  | boot : Reaches .loading State.reset
  | write {a b s} : Reaches .loading s → Reaches .loading (hostMemWrite a b s)
  | load {image s t} : Reaches .loading s → loadProgram image s = some t → Reaches .loading t
  | step {p s t} : Reaches p s → Sys2Proof.Machine.step s = .next t → Reaches .running t
  | reset {p s} : Reaches p s → Reaches .loading (hostReset s)

/-- The states of a run whose host follows rule R210. -/
def Reachable (s : State) : Prop := ∃ p, Reaches p s

end Sys2Proof.Machine
end

