-- ==== Sys2Proof/Certificates/Slice0/Obligations.lean ====
section
/-! DEFINITION. The statements about the block, from the numbered rules of spec/. `exec` is one handler, `step` one step;
`KeepsAllBut regs s t` is the frame (every other register, I, SP, the stack, the screen, FS, every byte of memory and the
random source), stated with a changed field put back where an instruction changes one. -/

open Sys2Proof Sys2Proof.Machine

/-! ### Encoding -/

/-- Decoding the word of a well-formed instruction gives the instruction back, every operand included (30_encoding.md 3.4). -/
def Obligations.DecodeOfEncodeIsIdentity : Prop := ∀ i : Instr, i.wf = true → decode (encode i) = i

/-- Every one of the 65536 words decodes to a well-formed instruction that keeps every bit of the word (30_encoding.md 3.5:
the decoder is total). -/
def Obligations.EncodeOfDecodeIsIdentity : Prop := ∀ w : Word, (decode w).wf = true ∧ encode (decode w) = w

/-- The decoder agrees with the opcode table: the decoded row matches the word, and every other row that matches sets fewer
mask bits (R89). -/
def Obligations.DecodePicksHeaviestRow : Prop :=
  ∀ w : Word, tableRow (decode w) ∈ tableRows ∧ rowMatches (tableRow (decode w)) w = true ∧
    ∀ row ∈ tableRows, rowMatches row w = true → row ≠ tableRow (decode w) →
      maskWeight row < maskWeight (tableRow (decode w))

/-- The source's two example words and their fields (R82). -/
def Obligations.SourceExampleWordsDecode : Prop :=
  (fieldG 0x6005 = 6 ∧ fieldX 0x6005 = 0 ∧ fieldKk 0x6005 = 0x05 ∧ decode 0x6005 = .ldImm 0 0x05) ∧
  (fieldG 0x3005 = 3 ∧ fieldX 0x3005 = 0 ∧ fieldKk 0x3005 = 0x05 ∧ decode 0x3005 = .seImm 0 0x05) ∧
  decodeBytes [0x60, 0x05] = .ok (.ldImm 0 0x05, []) ∧ decodeBytes [0x30, 0x05] = .ok (.seImm 0 0x05, [])

/-- One word or more of every family, taken from the test vectors of 95_test_vectors.md. -/
def Obligations.VectorWordsDecode : Prop :=
  decode 0x00E0 = .cls ∧ decode 0x00EE = .ret ∧ decode 0x1234 = .jp 0x234 ∧ decode 0x220A = .call 0x20A ∧
  decode 0x5125 = .seReg 1 2 5 ∧ decode 0x912F = .sneReg 1 2 15 ∧ decode 0xB206 = .jpV0 0x206 ∧
  decode 0x8126 = .shr 1 2 ∧ decode 0x80F7 = .subnReg 0 15 ∧ decode 0x834E = .shl 3 4 ∧ decode 0x8F04 = .addReg 15 0 ∧
  decode 0xA20E = .ldI 0x20E ∧ decode 0xC1F0 = .rnd 1 0xF0 ∧ decode 0xD012 = .drw 0 1 2 ∧
  decode 0x0123 = .nop0 0x123 ∧ decode 0x01E0 = .nop0 0x1E0 ∧ decode 0x8008 = .nop88 0 0 ∧ decode 0xE09E = .nopEx9E 0 ∧
  decode 0xF01E = .nopFx1E 0 ∧ decode 0xFFFF = .nopFx 15 0xFF

/-- GROUP0_KEY = low_byte, the alternative parameter: group 0 is matched on kk, every other group decodes alike
(30_encoding.md 3.3, 92 D2). -/
def Obligations.LowByteKeyMatchesTrailingByte : Prop :=
  ∀ w : Word, (fieldG w ≠ 0 → decodeWith .lowByte w = decode w) ∧
    (fieldG w = 0 → decodeWith .lowByte w =
      if fieldKk w = 0xE0 then .cls else if fieldKk w = 0xEE then .ret else .nop0 (fieldNnn w))

/-! ### The step -/

/-- A step of an unfaulted state runs, on that same state, the handler of the instruction that the big-endian word at pc and
(pc + 1) mod 0x1000 decodes to; pc may be odd or 0xFFF (R62, R111). The bound on pc is part of the invariant. -/
def Obligations.StepRunsDecodedInstruction : Prop :=
  ∀ (s : State) (w : Word), s.Unfaulted → s.pc.toNat < 0x1000 →
    w.toNat = (memRead s (BitVec.ofNat 12 s.pc.toNat)).toNat * 256 +
      (memRead s (BitVec.ofNat 12 ((s.pc.toNat + 1) % 0x1000))).toNat →
    step s = exec (decode w) s

/-- A faulted state takes no step: the step is a fault, the one its CAUSE names (R120). -/
def Obligations.FaultedStateTakesNoStep : Prop :=
  ∀ s : State, fsCause s.fs ≠ 0 → ∃ f, step s = .fault f ∧ causeCode f = fsCause s.fs

/-- The MODEL's own placing of an instruction (log entry 7): the word's two bytes stand at pc and (pc + 1) mod 0x1000, every
other byte and every other field is kept, and the next step runs exactly the placed word in the state placed. -/
def Obligations.PlacedWordRunsNext : Prop :=
  ∀ (s : State) (w : Word), s.Inv → s.Unfaulted →
    step (s.withFetchWord 16 w.toNat) = exec (decode w) (s.withFetchWord 16 w.toNat) ∧
    memRead (s.withFetchWord 16 w.toNat) (toAddr s.pc.toNat) = highByte w ∧
    memRead (s.withFetchWord 16 w.toNat) (toAddr (s.pc.toNat + 1)) = lowByte w ∧
    { s.withFetchWord 16 w.toNat with mem := s.mem } = s ∧
    ∀ a, a ≠ toAddr s.pc.toNat → a ≠ toAddr (s.pc.toNat + 1) → memRead (s.withFetchWord 16 w.toNat) a = memRead s a

/-- Every handler answers a next state, whatever the state and the operands, and so does the step of every unfaulted state,
whatever its memory holds (40_fetch_dispatch.md 4.3, 60_exceptions.md 8.1). -/
def Obligations.EveryUnfaultedStateSteps : Prop :=
  (∀ (i : Instr) (s : State), ∃ t, exec i s = .next t) ∧ ∀ s : State, s.Unfaulted → ∃ t, step s = .next t

/-- The parametrised step at this hardware's parameters is the step (00_scope.md 0.4). -/
def Obligations.StepWithOwnParamsIsStep : Prop :=
  params = ⟨.full12, .wrap, .snapshot⟩ ∧ ∀ s : State, stepWith params s = step s

/-- OPERAND_SAMPLING = refuse_vf_operand, the alternative parameter: under every value of the other parameters, exactly 8xy5,
8xy6, 8xy7, 8xyE and Dxyn with x = F or y = F are refused, and every other instruction does as under snapshot; under wrap and
snapshot that is `exec` (00_scope.md 0.4, 92 D1). -/
def Obligations.VfOperandRefusedExactly : Prop :=
  ∀ (k : Group0Key) (pol : SpriteAddrPolicy) (i : Instr) (s : State),
    ((∃ x y, (x = VF ∨ y = VF) ∧
        (i = .subReg x y ∨ i = .shr x y ∨ i = .subnReg x y ∨ i = .shl x y ∨ ∃ n, i = .drw x y n)) →
      execWith ⟨k, pol, .refuseVfOperand⟩ i s = .refused .vfOperand) ∧
    ((¬∃ x y, (x = VF ∨ y = VF) ∧
        (i = .subReg x y ∨ i = .shr x y ∨ i = .subnReg x y ∨ i = .shl x y ∨ ∃ n, i = .drw x y n)) →
      execWith ⟨k, pol, .refuseVfOperand⟩ i s = execWith ⟨k, pol, .snapshot⟩ i s) ∧
    execWith ⟨k, .wrap, .snapshot⟩ i s = exec i s

/-! ### Reset, the host and memory -/

/-- Reset leaves every register, the stack, the screen and FS 0, pc at 0x200, FONT at 0x000-0x04F and 0x00 above (R43). `font`
is the parameter FONT at its default value, whose bytes the spec marks as general knowledge (log entry 2). -/
def Obligations.ResetLeavesTableValues : Prop :=
  (∀ r, readV State.reset r = 0x00) ∧ State.reset.i = 0x0000 ∧ State.reset.pc = 0x0200 ∧ State.reset.sp.val = 0 ∧
  (∀ k, stackEntry State.reset k = 0x0000) ∧ (∀ c r, State.reset.screen.pixel c r = false) ∧ State.reset.fs = 0 ∧
  font.length = 80 ∧ (∀ a : Addr, a.toNat < 0x50 → some (memRead State.reset a) = font[a.toNat]?) ∧
  (∀ a : Addr, 0x50 ≤ a.toNat → memRead State.reset a = 0x00)

/-- Asserting reset brings the reset state back from any state, faulted or not, and no step clears FS (R230). The random
source, outside the block, is not spoken of. -/
def Obligations.HostResetFromAnyState : Prop :=
  (∀ s : State, { hostReset s with draws := 0 } = { State.reset with draws := 0 }) ∧
  ∀ s t : State, step s = .next t → fsCause s.fs = 0

/-- Reset with FONT as an argument: its 80 bytes stand at 0x000-0x04F and 0x00 above, in canonical form (92 D22). -/
def Obligations.ResetWithFontHoldsFont : Prop :=
  ∀ bytes : Vector Byte 80, (resetWithFont bytes).mem.wf = true ∧
    (∀ k : Fin 80, memRead (resetWithFont bytes) (toAddr k.val) = bytes[k.val]) ∧
    (∀ a : Addr, 0x50 ≤ a.toNat → memRead (resetWithFont bytes) a = 0x00) ∧
    { resetWithFont bytes with mem := [] } = State.reset

/-- Loading a program of at most 0xE00 bytes puts it at 0x200 upward and keeps every other byte and everything else (R234). -/
def Obligations.ProgramLoadPlacesImage : Prop :=
  ∀ (image : List Byte) (s : State), s.mem.wf = true → image.length ≤ 0xE00 →
    ∃ t, loadProgram image s = some t ∧
      (∀ k (h : k < image.length), memRead t (BitVec.ofNat 12 (0x200 + k)) = image[k]) ∧
      (∀ a : Addr, a.toNat < 0x200 ∨ 0x200 + image.length ≤ a.toNat → memRead t a = memRead s a) ∧
      t.mem.wf = true ∧ { t with mem := s.mem } = s

/-- A host's write is what a later read of that address gives, and no other byte changes; so the next fetch sees it
(20_memory.md 2.6). -/
def Obligations.HostWriteIsReadBack : Prop :=
  ∀ (s : State) (a : Addr) (b : Byte), s.mem.wf = true →
    memRead (hostMemWrite a b s) a = b ∧ (∀ x, x ≠ a → memRead (hostMemWrite a b s) x = memRead s x) ∧
    (hostMemWrite a b s).mem.wf = true ∧ { hostMemWrite a b s with mem := s.mem } = s

/-- The MODEL's form of memory is canonical (log entry 11): two well-formed memories that hold the same bytes are the same
list. -/
def Obligations.EqualBytesMakeEqualMemory : Prop :=
  ∀ m m' : Memory, m.wf = true → m'.wf = true → (∀ a : Addr, m.byteAt a.toNat = m'.byteAt a.toNat) → m = m'

/-! ### The invariant -/

/-- The reset state meets the invariant. -/
def Obligations.InvHoldsAtReset : Prop := State.reset.Inv

/-- Every step keeps the invariant: pc and I stay below 0x1000, so do the stack entries, FS stays legal with CAUSE never 3, and
memory stays canonical (10_state.md 1.3 to 1.5, 1.9). -/
def Obligations.StepKeepsInv : Prop := ∀ s t : State, s.Inv → step s = .next t → t.Inv

/-- The invariant holds of every state that a host following its duties can bring about: reset, any memory writes and loads
before the first step, any steps, and any later reset with its writes and loads (60_exceptions.md 8.3, 20_memory.md 2.6). -/
def Obligations.ReachableStatesMeetInv : Prop := ∀ s : State, Reachable s → s.Inv

/-! ### Whole-machine rules -/

/-- No step writes memory (R64). -/
def Obligations.StepNeverWritesMemory : Prop :=
  ∀ s t : State, step s = .next t → ∀ a, memRead t a = memRead s a

/-- Only the instructions of the table write a general register, and only the registers it names (R23). -/
def Obligations.RegistersWrittenByTableOnly : Prop :=
  ∀ (i : Instr) (s t : State), exec i s = .next t → ∀ r, r ∉ writesV i → readV t r = readV s r

/-- An instruction reads no register but the operands it names, and V0 for Bnnn: changing another register changes nothing in
what it does, and the change stands afterwards unless the instruction overwrites it (10_state.md 1.2, 1.6; 41 5.4). -/
def Obligations.OnlyNamedRegistersAreRead : Prop :=
  ∀ (i : Instr) (s : State) (r : RegIdx) (b : Byte), r ∉ readsV i →
    exec i (writeV r b s) = mapNext (fun t => if r ∈ writesV i then t else writeV r b t) (exec i s)

/-- Annn is the only instruction that writes I, Dxyn the only one that reads it, I is 0 after reset, and I at most 0xFFF is
kept (10_state.md 1.4; the bound is the spec's own inference there: "So I ≤ 0xFFF holds in every reachable state"). -/
def Obligations.AddressRegisterWritersAndReaders : Prop :=
  (∀ (i : Instr) (s t : State), exec i s = .next t → t.i ≠ s.i → ∃ nnn : Addr, i = .ldI nnn ∧ t.i.toNat = nnn.toNat) ∧
  (∀ (i : Instr) (s : State) (w : Word), (∀ x y n, i ≠ .drw x y n) → (∀ nnn, i ≠ .ldI nnn) →
    exec i (writeI w s) = mapNext (writeI w) (exec i s)) ∧
  (∀ (nnn : Addr) (s : State) (w : Word), exec (.ldI nnn) (writeI w s) = exec (.ldI nnn) s) ∧
  State.reset.i = 0 ∧
  (∀ (i : Instr) (s t : State), exec i s = .next t → s.i.toNat ≤ 0xFFF → t.i.toNat ≤ 0xFFF)

/-- SP starts at 0, only 2nnn increments it and only 00EE decrements it, each by one; a call at 16 and a return at 0 leave it;
and it stays in 0 to 16 (R28). -/
def Obligations.StackPointerMovesByCallAndReturn : Prop :=
  State.reset.sp.val = 0 ∧
  (∀ (i : Instr) (s t : State), exec i s = .next t →
    t.sp.val ≤ 16 ∧
    (t.sp = s.sp ∨ (t.sp.val = s.sp.val + 1 ∧ ∃ nnn, i = .call nnn) ∨ (t.sp.val + 1 = s.sp.val ∧ i = .ret)) ∧
    ((∃ nnn, i = .call nnn) → s.sp.val = 16 → t.sp = s.sp ∧ fsCause t.fs = 1) ∧
    (i = .ret → s.sp.val = 0 → t.sp = s.sp ∧ fsCause t.fs = 2))

/-- A stack entry changes only by a call, only the entry at the old SP, and a return changes none (10_state.md 1.5). -/
def Obligations.StackEntriesWrittenByCallOnly : Prop :=
  ∀ (i : Instr) (s t : State), exec i s = .next t → ∀ k, stackEntry t k ≠ stackEntry s k →
    (∃ nnn, i = .call nnn) ∧ k.val = s.sp.val ∧ (stackEntry t k).toNat = (s.pc.toNat + 2) % 0x1000

/-- The screen is changed only by CLS and Dxyn, and read only by Dxyn, whose reading shows in VF and the screen alone (R186). -/
def Obligations.ScreenWritersAndReaders : Prop :=
  (∀ (i : Instr) (s t : State), exec i s = .next t → (∃ c r, t.screen.pixel c r ≠ s.screen.pixel c r) →
    i = .cls ∨ ∃ x y n, i = .drw x y n) ∧
  (∀ (i : Instr) (s : State) (scr : Screen), i ≠ .cls → (∀ x y n, i ≠ .drw x y n) →
    exec i (writeScreen scr s) = mapNext (writeScreen scr) (exec i s)) ∧
  (∀ (s : State) (scr : Screen), exec .cls (writeScreen scr s) = exec .cls s) ∧
  (∀ (x y : RegIdx) (n : Nibble) (s : State) (scr : Screen), ∃ t u, exec (.drw x y n) s = .next t ∧
    exec (.drw x y n) (writeScreen scr s) = .next u ∧
    writeV VF 0 (writeScreen clearScreen u) = writeV VF 0 (writeScreen clearScreen t))

/-- Memory is read by a handler only in Dxyn: any other instruction does the same over any other memory, so a skip neither
fetches nor decodes the word it passes over (20_memory.md 2.1; 41 5.1). -/
def Obligations.OnlyDrawReadsMemory : Prop :=
  ∀ (i : Instr) (s : State) (m : Memory), (∀ x y n, i ≠ .drw x y n) →
    exec i { s with mem := m } = mapNext (fun t => { t with mem := m }) (exec i s)

/-- FS is written only by the two stack faults, with their cause, the faulting pc and unused bits 0; FS is neither written nor
read by any other instruction (10_state.md 1.9, 60_exceptions.md 8.1). -/
def Obligations.FaultStatusWrittenByStackFaultsOnly : Prop :=
  (∀ (i : Instr) (s t : State), s.Inv → exec i s = .next t → t.fs ≠ s.fs →
    (((∃ nnn, i = .call nnn) ∧ s.sp.val = 16 ∧ fsCause t.fs = 1) ∨ (i = .ret ∧ s.sp.val = 0 ∧ fsCause t.fs = 2)) ∧
    (fsFpc t.fs).toNat = s.pc.toNat ∧ t.fs &&& 0xF000FFFC#32 = 0) ∧
  (∀ (i : Instr) (s t : State) (fs : BitVec 32), exec i s = .next t →
    ∃ u, exec i { s with fs := fs } = .next u ∧ { u with fs := t.fs } = t)

/-- Each Cxkk takes exactly one byte from the random source and no other instruction takes or sees one (10_state.md 1.10). The
count of draws is the MODEL's own field (log entry 1). -/
def Obligations.RandomByteTakenByRndOnly : Prop :=
  (∀ (i : Instr) (s t : State), exec i s = .next t →
    ((∃ x kk, i = .rnd x kk) → t.draws = s.draws + 1) ∧ ((∀ x kk, i ≠ .rnd x kk) → t.draws = s.draws)) ∧
  (∀ (i : Instr) (s : State) (d : Nat), (∀ x kk, i ≠ .rnd x kk) →
    exec i { s with draws := d } = mapNext (fun t => { t with draws := d }) (exec i s))

/-- VF holds 0 or 1 after every flag-setting instruction, VF as an operand or a destination included (42_alu.md 6.1). -/
def Obligations.FlagIsZeroOrOneAfterFlagSetters : Prop :=
  ∀ (i : Instr) (s t : State), setsFlag i = true → exec i s = .next t → readV t VF = 0 ∨ readV t VF = 1

/-! ### Runs -/

/-- The end of a run at a step count the host chooses (40 4.5, 92 D20): with no step it is where it stands; each step taken
counts one; a run splits where the host likes; it ends stopped, in an unfaulted state, or faulted, with the fault FS.CAUSE
names, and then further requests change nothing. -/
def Obligations.RunOfStepCountEndsStoppedOrFaulted : Prop :=
  (∀ s : State, s.Unfaulted → runFor 0 s = .stopped s) ∧
  (∀ (n : Nat) (s t : State), step s = .next t → runFor (n + 1) s = runFor n t) ∧
  (∀ (m n : Nat) (s t : State), runFor m s = .stopped t → runFor (m + n) s = runFor n t) ∧
  (∀ (m n : Nat) (s t : State) (f : Fault), runFor m s = .faulted f t → runFor (m + n) s = .faulted f t) ∧
  (∀ (n : Nat) (s : State), (∃ t, runFor n s = .stopped t ∧ t.Unfaulted) ∨
    ∃ f t, runFor n s = .faulted f t ∧ causeCode f = fsCause t.fs)

/-- The end of a run at an address the host watches (40 4.5, 92 D20): it ends stopped at the first state of the run with pc
there, or at a fault before that, and otherwise has not ended within the steps the host waits. That the starting state counts
is the model's choice (log entry 14). -/
def Obligations.RunToWatchedAddressEndsThereFirst : Prop :=
  ∀ (watch : Addr) (limit : Nat) (s : State),
    (∀ t, runTo watch limit s = some (.stopped t) ↔ ∃ k ≤ limit, runFor k s = .stopped t ∧ t.pc.toNat = watch.toNat ∧
      ∀ j < k, ∃ u, runFor j s = .stopped u ∧ u.pc.toNat ≠ watch.toNat) ∧
    (∀ f t, runTo watch limit s = some (.faulted f t) ↔ ∃ k ≤ limit, runFor k s = .faulted f t ∧
      ∀ j < k, ∃ u, runFor j s = .stopped u ∧ u.pc.toNat ≠ watch.toNat) ∧
    (runTo watch limit s = none ↔ ∀ j ≤ limit, ∃ u, runFor j s = .stopped u ∧ u.pc.toNat ≠ watch.toNat) ∧
    ∀ r t, runTo watch limit s ≠ some (.refused r t)

/-- A jump to its own address is an idle loop and no halt: the step is taken and leaves the state unchanged, and so does every
run of such steps (40 4.5, which the spec marks as its own inference). -/
def Obligations.SelfJumpIsIdleLoop : Prop :=
  ∀ (s : State) (nnn : Addr), s.Unfaulted → decode (fetch s) = .jp nnn → s.pc.toNat = nnn.toNat →
    step s = .next s ∧ ∀ n, runFor n s = .stopped s

/-! ### Control flow -/

/-- JP nnn (R131). -/
def Obligations.JumpSetsPc : Prop :=
  ∀ (nnn : Addr) (s : State), ∃ t, exec (.jp nnn) s = .next t ∧ t.pc.toNat = nnn.toNat ∧ KeepsAllBut [] s t

/-- CALL nnn: below SP = 16 it pushes (pc + 2) mod 0x1000 and jumps; at SP = 16 it raises StackOverflow, which writes FS with
the call's own pc and changes nothing else (R132). The bound on pc is part of the invariant. -/
def Obligations.CallPushesReturnAddressOrFaults : Prop :=
  (∀ (nnn : Addr) (s : State), s.sp.val ≠ 16 → ∃ t, exec (.call nnn) s = .next t ∧ t.pc.toNat = nnn.toNat ∧
    t.sp.val = s.sp.val + 1 ∧
    (∀ k : Fin 16, k.val = s.sp.val → (stackEntry t k).toNat = (s.pc.toNat + 2) % 0x1000) ∧
    (∀ k : Fin 16, k.val ≠ s.sp.val → stackEntry t k = stackEntry s k) ∧
    KeepsAllBut [] s { t with sp := s.sp, stack := s.stack }) ∧
  (∀ (nnn : Addr) (s : State), s.sp.val = 16 → s.pc.toNat < 0x1000 → ∃ t, exec (.call nnn) s = .next t ∧
    fsCause t.fs = 1 ∧ (fsFpc t.fs).toNat = s.pc.toNat ∧ t.fs &&& 0xF000FFFC#32 = 0 ∧ t.pc = s.pc ∧
    KeepsAllBut [] s { t with fs := s.fs })

/-- RET: above SP = 0 it pops the entry at SP - 1 into pc and leaves the entry; at SP = 0 it raises StackUnderflow, which
writes FS with the return's own pc and changes nothing else (R130). Stated under the invariant, which every step keeps: there
every entry and pc are below 0x1000. -/
def Obligations.ReturnPopsEntryOrFaults : Prop :=
  (∀ s : State, s.Inv → s.sp.val ≠ 0 → ∃ t, exec .ret s = .next t ∧ t.sp.val + 1 = s.sp.val ∧
    (∀ k : Fin 16, k.val + 1 = s.sp.val → t.pc = stackEntry s k) ∧ KeepsAllBut [] s { t with sp := s.sp }) ∧
  (∀ s : State, s.Inv → s.sp.val = 0 → ∃ t, exec .ret s = .next t ∧
    fsCause t.fs = 2 ∧ (fsFpc t.fs).toNat = s.pc.toNat ∧ t.fs &&& 0xF000FFFC#32 = 0 ∧ t.pc = s.pc ∧
    KeepsAllBut [] s { t with fs := s.fs })

/-- The skips on an immediate, 3xkk and 4xkk (R134, R135). -/
def Obligations.SkipOnImmediate : Prop :=
  ∀ (x : RegIdx) (kk : Byte) (s : State),
    (∃ t, exec (.seImm x kk) s = .next t ∧ PcMoved (if readV s x = kk then 4 else 2) s t ∧ KeepsAllBut [] s t) ∧
    (∃ t, exec (.sneImm x kk) s = .next t ∧ PcMoved (if readV s x ≠ kk then 4 else 2) s t ∧ KeepsAllBut [] s t)

/-- The skips on two registers, 5xyn and 9xyn, for every n (R136, R137). -/
def Obligations.SkipOnRegisters : Prop :=
  ∀ (x y : RegIdx) (n : Nibble) (s : State),
    (∃ t, exec (.seReg x y n) s = .next t ∧ PcMoved (if readV s x = readV s y then 4 else 2) s t ∧ KeepsAllBut [] s t) ∧
    (∃ t, exec (.sneReg x y n) s = .next t ∧ PcMoved (if readV s x ≠ readV s y then 4 else 2) s t ∧ KeepsAllBut [] s t)

/-- JP V0, nnn (R138). -/
def Obligations.JumpOffsetAddsV0 : Prop :=
  ∀ (nnn : Addr) (s : State), ∃ t, exec (.jpV0 nnn) s = .next t ∧
    t.pc.toNat = ((readV s 0).toNat + nnn.toNat) % 0x1000 ∧ KeepsAllBut [] s t

/-- The round trip of 41 5.1, which the spec marks as its own inference: a call at p below SP = 16, any run of steps that never
falls below the call's depth, and the return that then runs at that depth land on (p + 2) mod 0x1000 with SP as before the
call. -/
def Obligations.CallReturnRoundTrip : Prop :=
  ∀ (s t u v : State) (nnn : Addr), s.sp.val < 16 → decode (fetch s) = .call nnn → step s = .next t →
    RunAbove t.sp.val t u → u.sp = t.sp → decode (fetch u) = .ret → step u = .next v →
    v.pc.toNat = (s.pc.toNat + 2) % 0x1000 ∧ v.sp = s.sp

/-! ### ALU -/

/-- LD Vx, kk (R151). -/
def Obligations.LoadImmediate : Prop :=
  ∀ (x : RegIdx) (kk : Byte) (s : State), ∃ t, exec (.ldImm x kk) s = .next t ∧
    readV t x = kk ∧ PcMoved 2 s t ∧ KeepsAllBut [x] s t

/-- ADD Vx, kk: no flag (R152). -/
def Obligations.AddImmediateWraps : Prop :=
  ∀ (x : RegIdx) (kk : Byte) (s : State), ∃ t, exec (.addImm x kk) s = .next t ∧
    (readV t x).toNat = ((readV s x).toNat + kk.toNat) % 256 ∧ PcMoved 2 s t ∧ KeepsAllBut [x] s t

/-- LD Vx, Vy (R153). -/
def Obligations.LoadRegister : Prop :=
  ∀ (x y : RegIdx) (s : State), ∃ t, exec (.ldReg x y) s = .next t ∧
    readV t x = readV s y ∧ PcMoved 2 s t ∧ KeepsAllBut [x] s t

/-- OR, AND and XOR: no flag (R154, R155, R156). -/
def Obligations.LogicCombinesBits : Prop :=
  ∀ (x y : RegIdx) (s : State),
    (∃ t, exec (.orReg x y) s = .next t ∧ readV t x = readV s x ||| readV s y ∧ PcMoved 2 s t ∧ KeepsAllBut [x] s t) ∧
    (∃ t, exec (.andReg x y) s = .next t ∧ readV t x = readV s x &&& readV s y ∧ PcMoved 2 s t ∧ KeepsAllBut [x] s t) ∧
    (∃ t, exec (.xorReg x y) s = .next t ∧ readV t x = readV s x ^^^ readV s y ∧ PcMoved 2 s t ∧ KeepsAllBut [x] s t)

/-- ADD Vx, Vy: VF is the carry, also where x = F, where the sum is lost (R160). -/
def Obligations.AddRegisterSetsCarry : Prop :=
  ∀ (x y : RegIdx) (s : State), ∃ t, exec (.addReg x y) s = .next t ∧
    (x ≠ VF → (readV t x).toNat = ((readV s x).toNat + (readV s y).toNat) % 256) ∧
    (readV t VF).toNat = (if (readV s x).toNat + (readV s y).toNat > 255 then 1 else 0) ∧
    PcMoved 2 s t ∧ KeepsAllBut [x, VF] s t

/-- SUB Vx, Vy: VF is a > b, strictly, also where x = F, where the difference is lost (R161). -/
def Obligations.SubRegisterSetsNoBorrow : Prop :=
  ∀ (x y : RegIdx) (s : State), ∃ t, exec (.subReg x y) s = .next t ∧
    (x ≠ VF → ((readV t x).toNat : Int) = ((readV s x).toNat - (readV s y).toNat : Int) % 256) ∧
    (readV t VF).toNat = (if (readV s x).toNat > (readV s y).toNat then 1 else 0) ∧
    PcMoved 2 s t ∧ KeepsAllBut [x, VF] s t

/-- SHR Vx: VF is bit 0, and y has no effect (R162). -/
def Obligations.ShiftRightSetsLowBit : Prop :=
  ∀ (x y : RegIdx) (s : State), ∃ t, exec (.shr x y) s = .next t ∧
    (x ≠ VF → (readV t x).toNat = (readV s x).toNat / 2) ∧ (readV t VF).toNat = (readV s x).toNat % 2 ∧
    PcMoved 2 s t ∧ KeepsAllBut [x, VF] s t

/-- SUBN Vx, Vy: VF is b > a, strictly, also where x = F, where the difference is lost (R163). -/
def Obligations.SubnRegisterSetsNoBorrow : Prop :=
  ∀ (x y : RegIdx) (s : State), ∃ t, exec (.subnReg x y) s = .next t ∧
    (x ≠ VF → ((readV t x).toNat : Int) = ((readV s y).toNat - (readV s x).toNat : Int) % 256) ∧
    (readV t VF).toNat = (if (readV s y).toNat > (readV s x).toNat then 1 else 0) ∧
    PcMoved 2 s t ∧ KeepsAllBut [x, VF] s t

/-- SHL Vx: VF is bit 7, and y has no effect (R164). -/
def Obligations.ShiftLeftSetsHighBit : Prop :=
  ∀ (x y : RegIdx) (s : State), ∃ t, exec (.shl x y) s = .next t ∧
    (x ≠ VF → (readV t x).toNat = (readV s x).toNat * 2 % 256) ∧ (readV t VF).toNat = (readV s x).toNat / 128 ∧
    PcMoved 2 s t ∧ KeepsAllBut [x, VF] s t

/-- LD I, nnn (R165). -/
def Obligations.LoadAddressSetsI : Prop :=
  ∀ (nnn : Addr) (s : State), ∃ t, exec (.ldI nnn) s = .next t ∧ t.i.toNat = nnn.toNat ∧ PcMoved 2 s t ∧
    KeepsAllBut [] s { t with i := s.i }

/-- RND Vx, kk: the free byte of this draw, masked, whatever that byte is; one draw is taken even where kk = 0 (42_alu.md 6.6).
The free byte and the count of draws are the MODEL's (log entry 1). -/
def Obligations.RandomIsMasked : Prop :=
  ∀ (x : RegIdx) (kk : Byte) (s : State), ∃ t, exec (.rnd x kk) s = .next t ∧
    readV t x = Config.randByte s.draws &&& kk ∧ readV t x &&& ~~~kk = 0 ∧ t.draws = s.draws + 1 ∧
    PcMoved 2 s t ∧ KeepsAllBut [x] s { t with draws := s.draws }

/-! ### The no-op default -/

/-- The 21 no-op rows of the opcode table: pc on by 2 and nothing else (R117). -/
def Obligations.NoOpRowsOnlyAdvance : Prop :=
  ∀ (x y : RegIdx) (kk : Byte) (nnn : Addr) (s : State),
    (∃ t, exec (.nop0 nnn) s = .next t ∧ OnlyAdvances s t) ∧
    (∃ t, exec (.nop88 x y) s = .next t ∧ OnlyAdvances s t) ∧
    (∃ t, exec (.nop89 x y) s = .next t ∧ OnlyAdvances s t) ∧
    (∃ t, exec (.nop8A x y) s = .next t ∧ OnlyAdvances s t) ∧
    (∃ t, exec (.nop8B x y) s = .next t ∧ OnlyAdvances s t) ∧
    (∃ t, exec (.nop8C x y) s = .next t ∧ OnlyAdvances s t) ∧
    (∃ t, exec (.nop8D x y) s = .next t ∧ OnlyAdvances s t) ∧
    (∃ t, exec (.nop8F x y) s = .next t ∧ OnlyAdvances s t) ∧
    (∃ t, exec (.nopEx9E x) s = .next t ∧ OnlyAdvances s t) ∧
    (∃ t, exec (.nopExA1 x) s = .next t ∧ OnlyAdvances s t) ∧
    (∃ t, exec (.nopEx x kk) s = .next t ∧ OnlyAdvances s t) ∧
    (∃ t, exec (.nopFx07 x) s = .next t ∧ OnlyAdvances s t) ∧
    (∃ t, exec (.nopFx0A x) s = .next t ∧ OnlyAdvances s t) ∧
    (∃ t, exec (.nopFx15 x) s = .next t ∧ OnlyAdvances s t) ∧
    (∃ t, exec (.nopFx18 x) s = .next t ∧ OnlyAdvances s t) ∧
    (∃ t, exec (.nopFx29 x) s = .next t ∧ OnlyAdvances s t) ∧
    (∃ t, exec (.nopFx33 x) s = .next t ∧ OnlyAdvances s t) ∧
    (∃ t, exec (.nopFx55 x) s = .next t ∧ OnlyAdvances s t) ∧
    (∃ t, exec (.nopFx65 x) s = .next t ∧ OnlyAdvances s t) ∧
    (∃ t, exec (.nopFx1E x) s = .next t ∧ OnlyAdvances s t) ∧
    (∃ t, exec (.nopFx x kk) s = .next t ∧ OnlyAdvances s t)

/-- Every word with g = E or F, every group-0 word but 00E0 and 00EE, and 8xy8 to 8xyD and 8xyF take the no-op default (R118,
R119). -/
def Obligations.NoOpWordsOnlyAdvance : Prop :=
  ∀ (w : Word) (s : State),
    (fieldG w = 0xE ∨ fieldG w = 0xF ∨ (fieldG w = 0x0 ∧ w ≠ 0x00E0 ∧ w ≠ 0x00EE) ∨
      (fieldG w = 0x8 ∧ 8 ≤ (fieldN w).toNat ∧ fieldN w ≠ 0xE)) →
    ∃ t, exec (decode w) s = .next t ∧ OnlyAdvances s t

/-! ### Display -/

/-- CLS (R181). -/
def Obligations.ClearScreenClears : Prop :=
  ∀ s : State, ∃ t, exec .cls s = .next t ∧ (∀ c r, t.screen.pixel c r = false) ∧ PcMoved 2 s t ∧
    KeepsAllBut [] s { t with screen := s.screen }

/-- DRW Vx, Vy, n: sprite bit b of row r, at (I + r) mod 0x1000, is XORed into the pixel at column (V[x] + b) mod 64 and row
(V[y] + r) mod 32, no other pixel changes, and VF says whether a set pixel lay under a set bit; operands, VF among them, are
those from before the step. Under SPRITE_ADDR_POLICY = fault a draw past 0xFFF raises SpriteRange instead, with no other
effect (R182). The bound on pc is part of the invariant. -/
def Obligations.DrawXorsSpriteAndSetsCollision : Prop :=
  (∀ (x y : RegIdx) (n : Nibble) (s : State), ∃ t, exec (.drw x y n) s = .next t ∧
    (∀ r < n.toNat, ∀ b < 8,
      t.screen.pixel (toColumn ((readV s x).toNat + b)) (toRow ((readV s y).toNat + r)) =
        (s.screen.pixel (toColumn ((readV s x).toNat + b)) (toRow ((readV s y).toNat + r)) ^^
          (memRead s (toAddr (s.i.toNat + r))).getMsbD b)) ∧
    (∀ c q, (∀ r < n.toNat, ∀ b < 8, ¬(toColumn ((readV s x).toNat + b) = c ∧ toRow ((readV s y).toNat + r) = q)) →
      t.screen.pixel c q = s.screen.pixel c q) ∧
    ((∃ r < n.toNat, ∃ b < 8,
      s.screen.pixel (toColumn ((readV s x).toNat + b)) (toRow ((readV s y).toNat + r)) = true ∧
        (memRead s (toAddr (s.i.toNat + r))).getMsbD b = true) → readV t VF = 1) ∧
    ((∀ r < n.toNat, ∀ b < 8,
      ¬(s.screen.pixel (toColumn ((readV s x).toNat + b)) (toRow ((readV s y).toNat + r)) = true ∧
        (memRead s (toAddr (s.i.toNat + r))).getMsbD b = true)) → readV t VF = 0) ∧
    PcMoved 2 s t ∧ KeepsAllBut [VF] s { t with screen := s.screen }) ∧
  (∀ (x y : RegIdx) (n : Nibble) (s : State), n.toNat = 0 ∨ s.i.toNat + n.toNat ≤ 0x1000 →
    execDrwWith .fault x y n s = exec (.drw x y n) s) ∧
  (∀ (x y : RegIdx) (n : Nibble) (s : State), 1 ≤ n.toNat → s.i.toNat + n.toNat > 0x1000 → s.pc.toNat < 0x1000 →
    ∃ t, execDrwWith .fault x y n s = .next t ∧ fsCause t.fs = 3 ∧ (fsFpc t.fs).toNat = s.pc.toNat ∧
      t.fs &&& 0xF000FFFC#32 = 0 ∧ t.pc = s.pc ∧ KeepsAllBut [] s { t with fs := s.fs })

/-- The draw-twice law of 43 7.3, which the spec marks as its own inference: two equal draws in a row, with x and y not F,
restore every pixel, and the second sets VF exactly when some pixel under a set sprite bit was 0 before the first. -/
def Obligations.DrawTwiceRestoresScreen : Prop :=
  ∀ (x y : RegIdx) (n : Nibble) (s t u : State), x ≠ VF → y ≠ VF →
    exec (.drw x y n) s = .next t → exec (.drw x y n) t = .next u →
    (∀ c q, u.screen.pixel c q = s.screen.pixel c q) ∧
    (readV u VF = 1 ↔ ∃ r < n.toNat, ∃ b < 8, (memRead s (toAddr (s.i.toNat + r))).getMsbD b = true ∧
      s.screen.pixel (toColumn ((readV s x).toNat + b)) (toRow ((readV s y).toNat + r)) = false)

/-- The wrap law of 43 7.3, which the spec marks as its own inference: with V[x] = 60, sprite bits 0 to 3 of a row go to
columns 60 to 63 and bits 4 to 7 to columns 0 to 3; with V[y] = 30 and n = 4 the rows are 30, 31, 0 and 1. -/
def Obligations.DrawWrapsAtEdges : Prop :=
  ∀ (x y : RegIdx) (s t : State), readV s x = 60 → readV s y = 30 → exec (.drw x y 4) s = .next t →
    ∀ r : Fin 4, ∀ b : Fin 4,
      t.screen.pixel (![60, 61, 62, 63] b) (![30, 31, 0, 1] r) =
        (s.screen.pixel (![60, 61, 62, 63] b) (![30, 31, 0, 1] r) ^^
          (memRead s (toAddr (s.i.toNat + r.val))).getMsbD b.val) ∧
      t.screen.pixel (![0, 1, 2, 3] b) (![30, 31, 0, 1] r) =
        (s.screen.pixel (![0, 1, 2, 3] b) (![30, 31, 0, 1] r) ^^
          (memRead s (toAddr (s.i.toNat + r.val))).getMsbD (b.val + 4))
end

