-- ==== Sys2Proof/Laws/Decode.lean ====
section
/-! SUPPORT. The laws of the encoding: the fields of a word that the encoder builds (spec rules R9, R81), a word put together
again from its fields, and the two bytes of a word (R62). -/

namespace Sys2Proof

@[simp] theorem fieldG_wordOfNibbles (g : Nibble) (x y : RegIdx) (n : Nibble) : fieldG (wordOfNibbles g x y n) = g := by
  apply BitVec.eq_of_getLsbD_eq; intro i hi
  simp only [fieldG, wordOfNibbles, BitVec.getLsbD_extractLsb', BitVec.getLsbD_append]
  interval_cases i <;> simp

@[simp] theorem fieldX_wordOfNibbles (g : Nibble) (x y : RegIdx) (n : Nibble) : fieldX (wordOfNibbles g x y n) = x := by
  apply BitVec.eq_of_getLsbD_eq; intro i hi
  simp only [fieldX, wordOfNibbles, BitVec.getLsbD_extractLsb', BitVec.getLsbD_append]
  interval_cases i <;> simp

@[simp] theorem fieldY_wordOfNibbles (g : Nibble) (x y : RegIdx) (n : Nibble) : fieldY (wordOfNibbles g x y n) = y := by
  apply BitVec.eq_of_getLsbD_eq; intro i hi
  simp only [fieldY, wordOfNibbles, BitVec.getLsbD_extractLsb', BitVec.getLsbD_append]
  interval_cases i <;> simp

@[simp] theorem fieldN_wordOfNibbles (g : Nibble) (x y : RegIdx) (n : Nibble) : fieldN (wordOfNibbles g x y n) = n := by
  apply BitVec.eq_of_getLsbD_eq; intro i hi
  simp only [fieldN, wordOfNibbles, BitVec.getLsbD_extractLsb', BitVec.getLsbD_append]
  interval_cases i <;> simp

@[simp] theorem fieldG_wordOfByte (g : Nibble) (x : RegIdx) (kk : Byte) : fieldG (wordOfByte g x kk) = g := by
  apply BitVec.eq_of_getLsbD_eq; intro i hi
  simp only [fieldG, wordOfByte, BitVec.getLsbD_extractLsb', BitVec.getLsbD_append]
  interval_cases i <;> simp

@[simp] theorem fieldX_wordOfByte (g : Nibble) (x : RegIdx) (kk : Byte) : fieldX (wordOfByte g x kk) = x := by
  apply BitVec.eq_of_getLsbD_eq; intro i hi
  simp only [fieldX, wordOfByte, BitVec.getLsbD_extractLsb', BitVec.getLsbD_append]
  interval_cases i <;> simp

@[simp] theorem fieldKk_wordOfByte (g : Nibble) (x : RegIdx) (kk : Byte) : fieldKk (wordOfByte g x kk) = kk := by
  apply BitVec.eq_of_getLsbD_eq; intro i hi
  simp only [fieldKk, wordOfByte, BitVec.getLsbD_extractLsb', BitVec.getLsbD_append]
  interval_cases i <;> simp

@[simp] theorem fieldG_wordOfAddr (g : Nibble) (nnn : Addr) : fieldG (wordOfAddr g nnn) = g := by
  apply BitVec.eq_of_getLsbD_eq; intro i hi
  simp only [fieldG, wordOfAddr, BitVec.getLsbD_extractLsb', BitVec.getLsbD_append]
  interval_cases i <;> simp

@[simp] theorem fieldNnn_wordOfAddr (g : Nibble) (nnn : Addr) : fieldNnn (wordOfAddr g nnn) = nnn := by
  apply BitVec.eq_of_getLsbD_eq; intro i hi
  simp only [fieldNnn, wordOfAddr, BitVec.getLsbD_extractLsb', BitVec.getLsbD_append]
  interval_cases i <;> simp

/-- A word is put together again from its fields. -/
theorem wordOfNibbles_fields (w : Word) : wordOfNibbles (fieldG w) (fieldX w) (fieldY w) (fieldN w) = w := by
  apply BitVec.eq_of_getLsbD_eq; intro i hi
  simp only [fieldG, fieldX, fieldY, fieldN, wordOfNibbles, BitVec.getLsbD_extractLsb', BitVec.getLsbD_append]
  interval_cases i <;> simp

/-- A word is put together again from its fields. -/
theorem wordOfByte_fields (w : Word) : wordOfByte (fieldG w) (fieldX w) (fieldKk w) = w := by
  apply BitVec.eq_of_getLsbD_eq; intro i hi
  simp only [fieldG, fieldX, fieldKk, wordOfByte, BitVec.getLsbD_extractLsb', BitVec.getLsbD_append]
  interval_cases i <;> simp

/-- A word is put together again from its fields. -/
theorem wordOfAddr_fields (w : Word) : wordOfAddr (fieldG w) (fieldNnn w) = w := by
  apply BitVec.eq_of_getLsbD_eq; intro i hi
  simp only [fieldG, fieldNnn, wordOfAddr, BitVec.getLsbD_extractLsb', BitVec.getLsbD_append]
  interval_cases i <;> simp

/-- The two bytes of a word make the word again (R62). -/
@[simp] theorem joinBytes_high_low (w : Word) : joinBytes (highByte w) (lowByte w) = w := by
  apply BitVec.eq_of_getLsbD_eq; intro i hi
  simp only [joinBytes, highByte, lowByte, BitVec.getLsbD_or, BitVec.getLsbD_shiftLeft, BitVec.getLsbD_extractLsb',
    BitVec.getLsbD_setWidth, BitVec.zeroExtend]
  interval_cases i <;> simp

@[simp] theorem highByte_joinBytes (hi lo : Byte) : highByte (joinBytes hi lo) = hi := by
  apply BitVec.eq_of_getLsbD_eq; intro i hi
  simp only [joinBytes, highByte, BitVec.getLsbD_or, BitVec.getLsbD_shiftLeft, BitVec.getLsbD_extractLsb',
    BitVec.getLsbD_setWidth, BitVec.zeroExtend]
  interval_cases i <;> simp

@[simp] theorem lowByte_joinBytes (hi lo : Byte) : lowByte (joinBytes hi lo) = lo := by
  apply BitVec.eq_of_getLsbD_eq; intro i hi
  simp only [joinBytes, lowByte, BitVec.getLsbD_or, BitVec.getLsbD_shiftLeft, BitVec.getLsbD_extractLsb',
    BitVec.getLsbD_setWidth, BitVec.zeroExtend]
  interval_cases i <;> simp

/-- The number a fetched word stands for: the byte at the lower address counts 256 times (R62). -/
theorem toNat_joinBytes (hi lo : Byte) : (joinBytes hi lo).toNat = 256 * hi.toNat + lo.toNat := by
  have h : joinBytes hi lo = hi ++ lo := by
    apply BitVec.eq_of_getLsbD_eq; intro i hi
    simp only [joinBytes, BitVec.getLsbD_or, BitVec.getLsbD_shiftLeft, BitVec.getLsbD_append, BitVec.getLsbD_setWidth,
      BitVec.zeroExtend]
    interval_cases i <;> simp
  rw [h, BitVec.toNat_append, ← Nat.shiftLeft_add_eq_or_of_lt lo.isLt, Nat.shiftLeft_eq]
  omega

/-! A row of the opcode table matches by the fields its mask keeps (R89). -/

theorem and_groupMask (w : Word) : w &&& 0xF000#16 = wordOfAddr (fieldG w) 0 := by
  apply BitVec.eq_of_getLsbD_eq; intro i hi
  simp only [fieldG, wordOfAddr, BitVec.getLsbD_and, BitVec.getLsbD_extractLsb', BitVec.getLsbD_append]
  interval_cases i <;> simp

theorem and_groupNibbleMask (w : Word) : w &&& 0xF00F#16 = wordOfNibbles (fieldG w) 0 0 (fieldN w) := by
  apply BitVec.eq_of_getLsbD_eq; intro i hi
  simp only [fieldG, fieldN, wordOfNibbles, BitVec.getLsbD_and, BitVec.getLsbD_extractLsb', BitVec.getLsbD_append]
  interval_cases i <;> simp

theorem and_groupByteMask (w : Word) : w &&& 0xF0FF#16 = wordOfByte (fieldG w) 0 (fieldKk w) := by
  apply BitVec.eq_of_getLsbD_eq; intro i hi
  simp only [fieldG, fieldKk, wordOfByte, BitVec.getLsbD_and, BitVec.getLsbD_extractLsb', BitVec.getLsbD_append]
  interval_cases i <;> simp

/-- A row that keeps the group alone. -/
theorem rowMatches_group (g : Nibble) (w : Word) : rowMatches (wordOfAddr g 0, 0xF000) w = true ↔ fieldG w = g := by
  rw [rowMatches, beq_iff_eq, show w &&& (0xF000 : Word) = _ from and_groupMask w]
  exact ⟨fun h => by simpa using congrArg fieldG h, fun h => by rw [h]⟩

/-- A row that keeps the group and the trailing nibble. -/
theorem rowMatches_groupNibble (g n : Nibble) (w : Word) :
    rowMatches (wordOfNibbles g 0 0 n, 0xF00F) w = true ↔ fieldG w = g ∧ fieldN w = n := by
  rw [rowMatches, beq_iff_eq, show w &&& (0xF00F : Word) = _ from and_groupNibbleMask w]
  exact ⟨fun h => ⟨by simpa using congrArg fieldG h, by simpa using congrArg fieldN h⟩, fun h => by rw [h.1, h.2]⟩

/-- A row that keeps the group and the trailing byte. -/
theorem rowMatches_groupByte (g : Nibble) (kk : Byte) (w : Word) :
    rowMatches (wordOfByte g 0 kk, 0xF0FF) w = true ↔ fieldG w = g ∧ fieldKk w = kk := by
  rw [rowMatches, beq_iff_eq, show w &&& (0xF0FF : Word) = _ from and_groupByteMask w]
  exact ⟨fun h => ⟨by simpa using congrArg fieldG h, by simpa using congrArg fieldKk h⟩, fun h => by rw [h.1, h.2]⟩

/-- A row that keeps the whole word. -/
theorem rowMatches_whole (m w : Word) : rowMatches (m, 0xFFFF) w = true ↔ w = m := by
  rw [rowMatches, beq_iff_eq, show w &&& (0xFFFF : Word) = w from BitVec.and_allOnes]

/-- Two rows that match one word agree where their masks overlap. -/
theorem rows_agree_of_both_match {r q : Word × Word} {w : Word} (h : rowMatches r w = true) (h' : rowMatches q w = true) :
    r.1 &&& q.2 = q.1 &&& r.2 := by
  simp only [rowMatches, beq_iff_eq] at h h'
  rw [← h, ← h', BitVec.and_assoc, BitVec.and_assoc, BitVec.and_comm r.2]

/-- Two different rows of the table that agree where their masks overlap: the second is lighter, or the first is one of the
three catch-all rows and the second one of the rows it loses to (R89). -/
theorem overlapping_rows : ∀ r ∈ tableRows, ∀ q ∈ tableRows, r.1 &&& q.2 = q.1 &&& r.2 → r ≠ q →
    maskWeight q < maskWeight r ∨ r.2 = 0xF000 ∧
      (r.1 = 0 ∧ (q = (0x00E0, 0xFFFF) ∨ q = (0x00EE, 0xFFFF)) ∨
        (r.1 = 0xE000 ∧ q.2 = 0xF0FF ∧ (fieldKk q.1 = 0x9E ∨ fieldKk q.1 = 0xA1)) ∨
        (r.1 = 0xF000 ∧ q.2 = 0xF0FF ∧ fieldKk q.1 ∈ groupFKeys)) := by decide +kernel

/-- A word decodes by its group (R89), one lemma per group that has no sub-key, and one per function of a group that has. -/
theorem decodeWith_group0 (key : Group0Key) {w : Word} (h : fieldG w = 0) : decodeWith key w = decodeGroup0 key w := by
  simp [decodeWith, h]

theorem decodeWith_group8 (key : Group0Key) {w : Word} (h : fieldG w = 8) : decodeWith key w = decodeGroup8 w := by
  simp [decodeWith, h]

theorem decodeWith_groupE (key : Group0Key) {w : Word} (h : fieldG w = 14) : decodeWith key w = decodeGroupE w := by
  simp [decodeWith, h]

theorem decodeWith_groupF (key : Group0Key) {w : Word} (h : fieldG w = 15) : decodeWith key w = decodeGroupF w := by
  simp [decodeWith, h]

end Sys2Proof
end

