-- ==== Sys2Proof/Laws/State.lean ====
section
/-! SUPPORT. One lemma per field per update of the state, each true by rfl, and the register file's read-after-write laws, so
that no later proof unfolds a record update. -/

namespace Sys2Proof.Machine

@[simp] theorem writeV_v (x : RegIdx) (b : Byte) (s : State) : (writeV x b s).v = s.v.set x.toNat b x.isLt := rfl
@[simp] theorem writeV_i (x : RegIdx) (b : Byte) (s : State) : (writeV x b s).i = s.i := rfl
@[simp] theorem writeV_pc (x : RegIdx) (b : Byte) (s : State) : (writeV x b s).pc = s.pc := rfl
@[simp] theorem writeV_sp (x : RegIdx) (b : Byte) (s : State) : (writeV x b s).sp = s.sp := rfl
@[simp] theorem writeV_stack (x : RegIdx) (b : Byte) (s : State) : (writeV x b s).stack = s.stack := rfl
@[simp] theorem writeV_screen (x : RegIdx) (b : Byte) (s : State) : (writeV x b s).screen = s.screen := rfl
@[simp] theorem writeV_fs (x : RegIdx) (b : Byte) (s : State) : (writeV x b s).fs = s.fs := rfl
@[simp] theorem writeV_mem (x : RegIdx) (b : Byte) (s : State) : (writeV x b s).mem = s.mem := rfl
@[simp] theorem writeV_draws (x : RegIdx) (b : Byte) (s : State) : (writeV x b s).draws = s.draws := rfl

@[simp] theorem writePc_v (n : Nat) (s : State) : (writePc n s).v = s.v := rfl
@[simp] theorem writePc_i (n : Nat) (s : State) : (writePc n s).i = s.i := rfl
@[simp] theorem writePc_pc (n : Nat) (s : State) : (writePc n s).pc = BitVec.ofNat 16 (n % 0x1000) := rfl
@[simp] theorem writePc_sp (n : Nat) (s : State) : (writePc n s).sp = s.sp := rfl
@[simp] theorem writePc_stack (n : Nat) (s : State) : (writePc n s).stack = s.stack := rfl
@[simp] theorem writePc_screen (n : Nat) (s : State) : (writePc n s).screen = s.screen := rfl
@[simp] theorem writePc_fs (n : Nat) (s : State) : (writePc n s).fs = s.fs := rfl
@[simp] theorem writePc_mem (n : Nat) (s : State) : (writePc n s).mem = s.mem := rfl
@[simp] theorem writePc_draws (n : Nat) (s : State) : (writePc n s).draws = s.draws := rfl

@[simp] theorem advance_v (s : State) : (advance s).v = s.v := rfl
@[simp] theorem advance_i (s : State) : (advance s).i = s.i := rfl
@[simp] theorem advance_pc (s : State) : (advance s).pc = BitVec.ofNat 16 ((s.pc.toNat + 2) % 0x1000) := rfl
@[simp] theorem advance_sp (s : State) : (advance s).sp = s.sp := rfl
@[simp] theorem advance_stack (s : State) : (advance s).stack = s.stack := rfl
@[simp] theorem advance_screen (s : State) : (advance s).screen = s.screen := rfl
@[simp] theorem advance_fs (s : State) : (advance s).fs = s.fs := rfl
@[simp] theorem advance_mem (s : State) : (advance s).mem = s.mem := rfl
@[simp] theorem advance_draws (s : State) : (advance s).draws = s.draws := rfl

@[simp] theorem skipIf_v (c : Bool) (s : State) : (skipIf c s).v = s.v := rfl
@[simp] theorem skipIf_i (c : Bool) (s : State) : (skipIf c s).i = s.i := rfl
@[simp] theorem skipIf_pc (c : Bool) (s : State) : (skipIf c s).pc = BitVec.ofNat 16 ((s.pc.toNat + if c then 4 else 2) % 0x1000) := rfl
@[simp] theorem skipIf_sp (c : Bool) (s : State) : (skipIf c s).sp = s.sp := rfl
@[simp] theorem skipIf_stack (c : Bool) (s : State) : (skipIf c s).stack = s.stack := rfl
@[simp] theorem skipIf_screen (c : Bool) (s : State) : (skipIf c s).screen = s.screen := rfl
@[simp] theorem skipIf_fs (c : Bool) (s : State) : (skipIf c s).fs = s.fs := rfl
@[simp] theorem skipIf_mem (c : Bool) (s : State) : (skipIf c s).mem = s.mem := rfl
@[simp] theorem skipIf_draws (c : Bool) (s : State) : (skipIf c s).draws = s.draws := rfl

@[simp] theorem writeI_v (w : Word) (s : State) : (writeI w s).v = s.v := rfl
@[simp] theorem writeI_i (w : Word) (s : State) : (writeI w s).i = w := rfl
@[simp] theorem writeI_pc (w : Word) (s : State) : (writeI w s).pc = s.pc := rfl
@[simp] theorem writeI_sp (w : Word) (s : State) : (writeI w s).sp = s.sp := rfl
@[simp] theorem writeI_stack (w : Word) (s : State) : (writeI w s).stack = s.stack := rfl
@[simp] theorem writeI_screen (w : Word) (s : State) : (writeI w s).screen = s.screen := rfl
@[simp] theorem writeI_fs (w : Word) (s : State) : (writeI w s).fs = s.fs := rfl
@[simp] theorem writeI_mem (w : Word) (s : State) : (writeI w s).mem = s.mem := rfl
@[simp] theorem writeI_draws (w : Word) (s : State) : (writeI w s).draws = s.draws := rfl

@[simp] theorem writeScreen_v (scr : Screen) (s : State) : (writeScreen scr s).v = s.v := rfl
@[simp] theorem writeScreen_i (scr : Screen) (s : State) : (writeScreen scr s).i = s.i := rfl
@[simp] theorem writeScreen_pc (scr : Screen) (s : State) : (writeScreen scr s).pc = s.pc := rfl
@[simp] theorem writeScreen_sp (scr : Screen) (s : State) : (writeScreen scr s).sp = s.sp := rfl
@[simp] theorem writeScreen_stack (scr : Screen) (s : State) : (writeScreen scr s).stack = s.stack := rfl
@[simp] theorem writeScreen_screen (scr : Screen) (s : State) : (writeScreen scr s).screen = scr := rfl
@[simp] theorem writeScreen_fs (scr : Screen) (s : State) : (writeScreen scr s).fs = s.fs := rfl
@[simp] theorem writeScreen_mem (scr : Screen) (s : State) : (writeScreen scr s).mem = s.mem := rfl
@[simp] theorem writeScreen_draws (scr : Screen) (s : State) : (writeScreen scr s).draws = s.draws := rfl

@[simp] theorem takeRand_v (s : State) : (takeRand s).v = s.v := rfl
@[simp] theorem takeRand_i (s : State) : (takeRand s).i = s.i := rfl
@[simp] theorem takeRand_pc (s : State) : (takeRand s).pc = s.pc := rfl
@[simp] theorem takeRand_sp (s : State) : (takeRand s).sp = s.sp := rfl
@[simp] theorem takeRand_stack (s : State) : (takeRand s).stack = s.stack := rfl
@[simp] theorem takeRand_screen (s : State) : (takeRand s).screen = s.screen := rfl
@[simp] theorem takeRand_fs (s : State) : (takeRand s).fs = s.fs := rfl
@[simp] theorem takeRand_mem (s : State) : (takeRand s).mem = s.mem := rfl
@[simp] theorem takeRand_draws (s : State) : (takeRand s).draws = s.draws + 1 := rfl

@[simp] theorem memWrite_v (a : Addr) (b : Byte) (s : State) : (memWrite a b s).v = s.v := rfl
@[simp] theorem memWrite_i (a : Addr) (b : Byte) (s : State) : (memWrite a b s).i = s.i := rfl
@[simp] theorem memWrite_pc (a : Addr) (b : Byte) (s : State) : (memWrite a b s).pc = s.pc := rfl
@[simp] theorem memWrite_sp (a : Addr) (b : Byte) (s : State) : (memWrite a b s).sp = s.sp := rfl
@[simp] theorem memWrite_stack (a : Addr) (b : Byte) (s : State) : (memWrite a b s).stack = s.stack := rfl
@[simp] theorem memWrite_screen (a : Addr) (b : Byte) (s : State) : (memWrite a b s).screen = s.screen := rfl
@[simp] theorem memWrite_fs (a : Addr) (b : Byte) (s : State) : (memWrite a b s).fs = s.fs := rfl
@[simp] theorem memWrite_mem (a : Addr) (b : Byte) (s : State) : (memWrite a b s).mem = s.mem.store a.toNat b := rfl
@[simp] theorem memWrite_draws (a : Addr) (b : Byte) (s : State) : (memWrite a b s).draws = s.draws := rfl

@[simp] theorem raiseFault_v (f : Fault) (s : State) : (raiseFault f s).v = s.v := rfl
@[simp] theorem raiseFault_i (f : Fault) (s : State) : (raiseFault f s).i = s.i := rfl
@[simp] theorem raiseFault_pc (f : Fault) (s : State) : (raiseFault f s).pc = s.pc := rfl
@[simp] theorem raiseFault_sp (f : Fault) (s : State) : (raiseFault f s).sp = s.sp := rfl
@[simp] theorem raiseFault_stack (f : Fault) (s : State) : (raiseFault f s).stack = s.stack := rfl
@[simp] theorem raiseFault_screen (f : Fault) (s : State) : (raiseFault f s).screen = s.screen := rfl
@[simp] theorem raiseFault_fs (f : Fault) (s : State) : (raiseFault f s).fs = fsWord (causeCode f) (toAddr s.pc.toNat) := rfl
@[simp] theorem raiseFault_mem (f : Fault) (s : State) : (raiseFault f s).mem = s.mem := rfl
@[simp] theorem raiseFault_draws (f : Fault) (s : State) : (raiseFault f s).draws = s.draws := rfl

@[simp] theorem dropEntry_v (s : State) : (dropEntry s).v = s.v := rfl
@[simp] theorem dropEntry_i (s : State) : (dropEntry s).i = s.i := rfl
@[simp] theorem dropEntry_pc (s : State) : (dropEntry s).pc = s.pc := rfl
@[simp] theorem dropEntry_sp (s : State) : (dropEntry s).sp = ⟨s.sp.val - 1, by omega⟩ := rfl
@[simp] theorem dropEntry_stack (s : State) : (dropEntry s).stack = s.stack := rfl
@[simp] theorem dropEntry_screen (s : State) : (dropEntry s).screen = s.screen := rfl
@[simp] theorem dropEntry_fs (s : State) : (dropEntry s).fs = s.fs := rfl
@[simp] theorem dropEntry_mem (s : State) : (dropEntry s).mem = s.mem := rfl
@[simp] theorem dropEntry_draws (s : State) : (dropEntry s).draws = s.draws := rfl

@[simp] theorem pushEntry_v (w : Word) (s : State) (h : s.sp.val < 16) : (pushEntry w s h).v = s.v := rfl
@[simp] theorem pushEntry_i (w : Word) (s : State) (h : s.sp.val < 16) : (pushEntry w s h).i = s.i := rfl
@[simp] theorem pushEntry_pc (w : Word) (s : State) (h : s.sp.val < 16) : (pushEntry w s h).pc = s.pc := rfl
@[simp] theorem pushEntry_sp (w : Word) (s : State) (h : s.sp.val < 16) : (pushEntry w s h).sp = ⟨s.sp.val + 1, by omega⟩ := rfl
@[simp] theorem pushEntry_stack (w : Word) (s : State) (h : s.sp.val < 16) : (pushEntry w s h).stack = s.stack.set s.sp.val w h := rfl
@[simp] theorem pushEntry_screen (w : Word) (s : State) (h : s.sp.val < 16) : (pushEntry w s h).screen = s.screen := rfl
@[simp] theorem pushEntry_fs (w : Word) (s : State) (h : s.sp.val < 16) : (pushEntry w s h).fs = s.fs := rfl
@[simp] theorem pushEntry_mem (w : Word) (s : State) (h : s.sp.val < 16) : (pushEntry w s h).mem = s.mem := rfl
@[simp] theorem pushEntry_draws (w : Word) (s : State) (h : s.sp.val < 16) : (pushEntry w s h).draws = s.draws := rfl

/-- Two states with the same register file read the same registers. -/
theorem readV_congr {s t : State} (h : t.v = s.v) (x : RegIdx) : readV t x = readV s x := by
  simp [readV, h]

/-- Two states with the same memory read the same bytes. -/
theorem memRead_congr {s t : State} (h : t.mem = s.mem) (a : Addr) : memRead t a = memRead s a := by
  simp [memRead, h]

/-- Two states with the same stack hold the same entries. -/
theorem stackEntry_congr {s t : State} (h : t.stack = s.stack) (k : Fin 16) : stackEntry t k = stackEntry s k := by
  simp [stackEntry, h]

/-- A register read after a register write. -/
theorem readV_writeV (x r : RegIdx) (b : Byte) (s : State) :
    readV (writeV x b s) r = if x = r then b else readV s r := by
  simp only [readV, writeV_v, Vector.getElem_set]
  exact if_congr BitVec.toNat_inj rfl rfl

@[simp] theorem readV_writeV_same (x : RegIdx) (b : Byte) (s : State) : readV (writeV x b s) x = b := by
  simp [readV_writeV]

theorem readV_writeV_of_ne {x r : RegIdx} (h : x ≠ r) (b : Byte) (s : State) :
    readV (writeV x b s) r = readV s r := by
  simp [readV_writeV, h]

/-- Of two writes to one register the last stands. -/
@[simp] theorem writeV_writeV_same (x : RegIdx) (a b : Byte) (s : State) : writeV x a (writeV x b s) = writeV x a s := by
  simp [writeV]

/-- Writes to two registers commute. -/
theorem writeV_comm {x y : RegIdx} (h : x ≠ y) (a b : Byte) (s : State) :
    writeV x a (writeV y b s) = writeV y b (writeV x a s) := by
  have h' : x.toNat ≠ y.toNat := fun e => h (BitVec.eq_of_toNat_eq e)
  simp only [writeV]
  rw [Vector.set_comm _ _ h'.symm]

@[simp] theorem readV_writePc (n : Nat) (s : State) (r : RegIdx) : readV (writePc n s) r = readV s r := rfl
@[simp] theorem readV_advance (s : State) (r : RegIdx) : readV (advance s) r = readV s r := rfl
@[simp] theorem readV_skipIf (c : Bool) (s : State) (r : RegIdx) : readV (skipIf c s) r = readV s r := rfl
@[simp] theorem readV_writeI (w : Word) (s : State) (r : RegIdx) : readV (writeI w s) r = readV s r := rfl
@[simp] theorem readV_writeScreen (scr : Screen) (s : State) (r : RegIdx) : readV (writeScreen scr s) r = readV s r := rfl
@[simp] theorem readV_takeRand (s : State) (r : RegIdx) : readV (takeRand s) r = readV s r := rfl
@[simp] theorem readV_memWrite (a : Addr) (b : Byte) (s : State) (r : RegIdx) : readV (memWrite a b s) r = readV s r := rfl
@[simp] theorem readV_raiseFault (f : Fault) (s : State) (r : RegIdx) : readV (raiseFault f s) r = readV s r := rfl
@[simp] theorem readV_dropEntry (s : State) (r : RegIdx) : readV (dropEntry s) r = readV s r := rfl
@[simp] theorem readV_pushEntry (w : Word) (s : State) (h : s.sp.val < 16) (r : RegIdx) :
    readV (pushEntry w s h) r = readV s r := rfl

@[simp] theorem stackEntry_writePc (n : Nat) (s : State) (k : Fin 16) :
    stackEntry (writePc n s) k = stackEntry s k := rfl
@[simp] theorem stackEntry_dropEntry (s : State) (k : Fin 16) : stackEntry (dropEntry s) k = stackEntry s k := rfl

/-- A pc written is below 0x1000 (R24). -/
theorem toNat_writePc (n : Nat) (s : State) : (writePc n s).pc.toNat = n % 0x1000 := by
  simp only [writePc_pc, BitVec.toNat_ofNat]
  exact Nat.mod_eq_of_lt (by omega)

theorem toNat_advance (s : State) : (advance s).pc.toNat = (s.pc.toNat + 2) % 0x1000 := toNat_writePc _ s

theorem toNat_skipIf (c : Bool) (s : State) :
    (skipIf c s).pc.toNat = (s.pc.toNat + if c then 4 else 2) % 0x1000 := toNat_writePc _ s

/-- The entry a call pushes is the one a return at the next depth pops (R132, R133). -/
theorem stackEntry_pushEntry (w : Word) (s : State) (h : s.sp.val < 16) (k : Fin 16) :
    stackEntry (pushEntry w s h) k = if s.sp.val = k.val then w else stackEntry s k := by
  simp only [stackEntry, pushEntry_stack, Vector.getElem_set]

end Sys2Proof.Machine
end

