-- ==== Sys2Proof/Laws/Memory.lean ====
section
/-! SUPPORT. The laws of memory: a byte read after a store, and that every memory operation keeps the canonical form. -/

namespace Sys2Proof.Machine

theorem Memory.byteAt_cons (a : Nat) (b : Byte) (m : Memory) (x : Nat) (h : x = a → m.byteAt x = unlistedByte x) :
    (Memory.cons a b m).byteAt x = if a = x then b else m.byteAt x := by
  unfold Memory.cons
  split
  · rename_i hb
    split
    · rename_i hx
      rw [h hx.symm, hb, hx]
    · rfl
  · simp [Memory.byteAt]

theorem Memory.byteAt_of_wfFrom : ∀ {m : Memory} {lo x : Nat}, m.wfFrom lo = true → x < lo → m.byteAt x = unlistedByte x
  | [], _, _, _, _ => rfl
  | (k, b) :: rest, lo, x, h, hx => by
    simp only [Memory.wfFrom, Bool.and_eq_true, decide_eq_true_eq] at h
    have hk : k ≠ x := by omega
    simp only [Memory.byteAt, hk, if_false]
    exact Memory.byteAt_of_wfFrom h.2 (by omega)

/-- A byte read after a store: the byte stored at its address, what was there at every other. -/
theorem Memory.byteAt_store : ∀ {m : Memory} {lo : Nat} (a : Nat) (b : Byte) (x : Nat), m.wfFrom lo = true →
    (m.store a b).byteAt x = if a = x then b else m.byteAt x
  | [], _, a, b, x, _ => by
    rw [Memory.store, Memory.byteAt_cons]
    intro _; rfl
  | (k, c) :: rest, lo, a, b, x, h => by
    have h' := h
    simp only [Memory.wfFrom, Bool.and_eq_true, decide_eq_true_eq] at h'
    obtain ⟨⟨⟨h1, h2⟩, h3⟩, h4⟩ := h'
    unfold Memory.store
    split
    · rename_i hak
      apply Memory.byteAt_cons
      rintro rfl
      have hk : k ≠ x := by omega
      simp only [Memory.byteAt, hk, if_false]
      exact Memory.byteAt_of_wfFrom h4 (by omega)
    · split
      · rename_i hak
        subst hak
        rw [Memory.byteAt_cons]
        · by_cases hx : a = x <;> simp [Memory.byteAt, hx]
        · rintro rfl
          exact Memory.byteAt_of_wfFrom h4 (by omega)
      · rename_i hlt hne
        have ih := Memory.byteAt_store a b x h4
        simp only [Memory.byteAt]
        by_cases hk : k = x
        · have : a ≠ x := by omega
          simp [hk, this]
        · simp [hk, ih]

theorem Memory.wfFrom_mono : ∀ {m : Memory} {lo hi : Nat}, m.wfFrom hi = true → lo ≤ hi → m.wfFrom lo = true
  | [], _, _, _, _ => rfl
  | (k, b) :: rest, lo, hi, h, hle => by
    simp only [Memory.wfFrom, Bool.and_eq_true, decide_eq_true_eq] at h ⊢
    exact ⟨⟨⟨by omega, h.1.1.2⟩, h.1.2⟩, h.2⟩

theorem Memory.wfFrom_cons {a lo : Nat} {b : Byte} {m : Memory} (hlo : lo ≤ a) (ha : a < 0x1000)
    (hm : m.wfFrom (a + 1) = true) : (Memory.cons a b m).wfFrom lo = true := by
  unfold Memory.cons
  split
  · exact Memory.wfFrom_mono hm (by omega)
  · rename_i hb
    simp [Memory.wfFrom, hlo, ha, hb, hm]

theorem Memory.wfFrom_store : ∀ {m : Memory} {lo : Nat} (a : Nat) (b : Byte), m.wfFrom lo = true → lo ≤ a → a < 0x1000 →
    (m.store a b).wfFrom lo = true
  | [], _, a, b, _, hlo, ha => Memory.wfFrom_cons hlo ha rfl
  | (k, c) :: rest, lo, a, b, h, hlo, ha => by
    have h' := h
    simp only [Memory.wfFrom, Bool.and_eq_true, decide_eq_true_eq] at h'
    obtain ⟨⟨⟨h1, h2⟩, h3⟩, h4⟩ := h'
    unfold Memory.store
    split
    · rename_i hak
      refine Memory.wfFrom_cons hlo ha ?_
      simp only [Memory.wfFrom, Bool.and_eq_true, decide_eq_true_eq]
      exact ⟨⟨⟨by omega, h2⟩, h3⟩, h4⟩
    · split
      · rename_i hak
        subst hak
        exact Memory.wfFrom_cons hlo ha h4
      · rename_i hlt hne
        simp only [Memory.wfFrom, Bool.and_eq_true, decide_eq_true_eq]
        exact ⟨⟨⟨h1, h2⟩, h3⟩, Memory.wfFrom_store a b h4 (by omega) ha⟩

/-- Storing a byte keeps the canonical form of memory. -/
theorem Memory.wf_store {m : Memory} (h : m.wf = true) (a : Addr) (b : Byte) : (m.store a.toNat b).wf = true :=
  Memory.wfFrom_store _ _ h (Nat.zero_le _) a.isLt

/-- Reset memory has the canonical form. -/
theorem reset_mem_wf : State.reset.mem.wf = true := rfl

/-- A byte read after a host's write. -/
theorem memRead_memWrite {s : State} (h : s.mem.wf = true) (a x : Addr) (b : Byte) :
    memRead (memWrite a b s) x = if a = x then b else memRead s x := by
  simp only [memRead, memWrite_mem, Memory.byteAt_store _ _ _ h]
  exact if_congr BitVec.toNat_inj rfl rfl

/-- A byte read from a well-formed memory that lists nothing is its reset byte. -/
theorem memRead_of_mem_nil {s : State} (h : s.mem = []) (a : Addr) : memRead s a = unlistedByte a.toNat := by
  simp [memRead, h, Memory.byteAt]

@[simp] theorem memRead_writeV (x : RegIdx) (b : Byte) (s : State) (a : Addr) : memRead (writeV x b s) a = memRead s a := rfl
@[simp] theorem memRead_writePc (n : Nat) (s : State) (a : Addr) : memRead (writePc n s) a = memRead s a := rfl

end Sys2Proof.Machine
end

