-- ==== Sys2Proof/Laws/Screen.lean ====
section
/-! SUPPORT. The laws of the screen and of the sprite engine (spec rules R180 to R183): a pixel read after a pixel write, and
what one sprite row and a whole sprite do. -/

namespace Sys2Proof.Machine

/-- A pixel read after a pixel write. -/
theorem Screen.pixel_setPixel (scr : Screen) (c c' : Fin 64) (r r' : Fin 32) (b : Bool) :
    (scr.setPixel c r b).pixel c' r' = if c = c' ∧ r = r' then b else scr.pixel c' r' := by
  unfold Screen.pixel Screen.setPixel
  by_cases hr : r = r'
  · subst hr
    simp [Vector.getElem_set, Fin.ext_iff]
  · have hr' : r.val ≠ r'.val := fun h => hr (Fin.ext h)
    simp [hr, hr']

/-- Every pixel of a clear screen is 0. -/
@[simp] theorem clearScreen_pixel (c : Fin 64) (r : Fin 32) : clearScreen.pixel c r = false := by
  simp [Screen.pixel, clearScreen]

/-- Eight columns in a row are distinct modulo 64 (R183). -/
theorem toColumn_add_inj {cx b b' : Nat} (hb : b < 64) (hb' : b' < 64) (h : toColumn (cx + b) = toColumn (cx + b')) :
    b = b' := by
  simp only [toColumn, Fin.mk.injEq] at h
  omega

/-- Fifteen rows in a row are distinct modulo 32 (R183). -/
theorem toRow_add_inj {cy r r' : Nat} (hr : r < 32) (hr' : r' < 32) (h : toRow (cy + r) = toRow (cy + r')) : r = r' := by
  simp only [toRow, Fin.mk.injEq] at h
  omega

/-- What the first `k` bits of a sprite row do: each visited pixel is XORed once, no other pixel changes, and the collision
flag picks up every set pixel under a set bit. -/
theorem drawBits_spec (cx : Nat) (row : Fin 32) (byte : Byte) (acc : Screen × Bool) :
    ∀ k ≤ 8,
      (∀ b < k, ((List.range k).foldl (drawBit cx row byte) acc).1.pixel (toColumn (cx + b)) row =
        (acc.1.pixel (toColumn (cx + b)) row ^^ byte.getLsbD (7 - b))) ∧
      (∀ c r, (r = row → ∀ b < k, toColumn (cx + b) ≠ c) →
        ((List.range k).foldl (drawBit cx row byte) acc).1.pixel c r = acc.1.pixel c r) ∧
      (((List.range k).foldl (drawBit cx row byte) acc).2 = true ↔
        acc.2 = true ∨ ∃ b < k, acc.1.pixel (toColumn (cx + b)) row = true ∧ byte.getLsbD (7 - b) = true) := by
  intro k
  induction k with
  | zero => simp
  | succ k ih =>
    intro hk
    obtain ⟨hit, miss, col⟩ := ih (by omega)
    simp only [List.range_succ, List.foldl_append, List.foldl_cons, List.foldl_nil]
    generalize hA : (List.range k).foldl (drawBit cx row byte) acc = A at hit miss col ⊢
    have fresh : A.1.pixel (toColumn (cx + k)) row = acc.1.pixel (toColumn (cx + k)) row :=
      miss _ _ fun _ b hb h => by have := toColumn_add_inj (by omega) (by omega) h; omega
    refine ⟨fun b hb => ?_, fun c r hcr => ?_, ?_⟩
    · simp only [drawBit, Screen.pixel_setPixel]
      by_cases hbk : b = k
      · subst hbk; simp [fresh]
      · have : toColumn (cx + k) ≠ toColumn (cx + b) := fun h => hbk (toColumn_add_inj (by omega) (by omega) h).symm
        simp [this, hit b (by omega)]
    · simp only [drawBit, Screen.pixel_setPixel]
      have hne : ¬(toColumn (cx + k) = c ∧ row = r) := fun h => hcr h.2.symm k (by omega) h.1
      rw [if_neg hne]
      exact miss c r fun hr b hb => hcr hr b (by omega)
    · simp only [drawBit, Bool.or_eq_true, Bool.and_eq_true, fresh, col]
      constructor
      · rintro ((h | ⟨b, hb, h⟩) | h)
        · exact .inl h
        · exact .inr ⟨b, by omega, h⟩
        · exact .inr ⟨k, by omega, h⟩
      · rintro (h | ⟨b, hb, h⟩)
        · exact .inl (.inl h)
        · by_cases hbk : b = k
          · subst hbk; exact .inr h
          · exact .inl (.inr ⟨b, by omega, h⟩)

/-- What one sprite row does (R182). -/
theorem drawByte_spec (cx : Nat) (row : Fin 32) (byte : Byte) (acc : Screen × Bool) :
    (∀ b < 8, (drawByte cx row byte acc).1.pixel (toColumn (cx + b)) row =
      (acc.1.pixel (toColumn (cx + b)) row ^^ byte.getLsbD (7 - b))) ∧
    (∀ c r, (r = row → ∀ b < 8, toColumn (cx + b) ≠ c) → (drawByte cx row byte acc).1.pixel c r = acc.1.pixel c r) ∧
    ((drawByte cx row byte acc).2 = true ↔
      acc.2 = true ∨ ∃ b < 8, acc.1.pixel (toColumn (cx + b)) row = true ∧ byte.getLsbD (7 - b) = true) :=
  drawBits_spec cx row byte acc 8 (Nat.le_refl 8)

/-- What the first `k` rows of a sprite do: each visited pixel is XORed once with its own sprite bit, no other pixel changes,
and the collision flag says whether some set pixel lay under a set bit before the draw. -/
theorem drawSprite_spec (s : State) (base cx cy : Nat) :
    ∀ k ≤ 32,
      (∀ r < k, ∀ b < 8, (drawSprite s base cx cy k).1.pixel (toColumn (cx + b)) (toRow (cy + r)) =
        (s.screen.pixel (toColumn (cx + b)) (toRow (cy + r)) ^^ (memRead s (toAddr (base + r))).getLsbD (7 - b))) ∧
      (∀ c q, (∀ r < k, ∀ b < 8, toColumn (cx + b) = c → toRow (cy + r) ≠ q) →
        (drawSprite s base cx cy k).1.pixel c q = s.screen.pixel c q) ∧
      ((drawSprite s base cx cy k).2 = true ↔
        ∃ r < k, ∃ b < 8, s.screen.pixel (toColumn (cx + b)) (toRow (cy + r)) = true ∧
          (memRead s (toAddr (base + r))).getLsbD (7 - b) = true) := by
  intro k
  induction k with
  | zero => simp [drawSprite]
  | succ k ih =>
    intro hk
    obtain ⟨hit, miss, col⟩ := ih (by omega)
    simp only [drawSprite, List.range_succ, List.foldl_append, List.foldl_cons, List.foldl_nil] at hit miss col ⊢
    generalize hA : (List.range k).foldl (drawRow s base cx cy) (s.screen, false) = A at hit miss col ⊢
    have fresh : ∀ c, A.1.pixel c (toRow (cy + k)) = s.screen.pixel c (toRow (cy + k)) := fun c =>
      miss _ _ fun r hr b _ _ h => by have := toRow_add_inj (by omega) (by omega) h; omega
    obtain ⟨hitB, missB, colB⟩ := drawByte_spec cx (toRow (cy + k)) (memRead s (toAddr (base + k))) A
    refine ⟨fun r hr b hb => ?_, fun c q hcq => ?_, ?_⟩
    · by_cases hrk : r = k
      · subst hrk
        simp only [drawRow, hitB b hb, fresh]
      · have hne : toRow (cy + r) ≠ toRow (cy + k) := fun h => hrk (toRow_add_inj (by omega) (by omega) h)
        rw [drawRow, missB _ _ fun h => absurd h hne]
        exact hit r (by omega) b hb
    · rw [drawRow, missB _ _ fun h b hb hc => hcq k (by omega) b hb hc h.symm]
      exact miss c q fun r hr b hb => hcq r (by omega) b hb
    · rw [drawRow, colB, col]
      constructor
      · rintro (⟨r, hr, h⟩ | ⟨b, hb, h⟩)
        · exact ⟨r, by omega, h⟩
        · exact ⟨k, by omega, b, hb, by simpa [fresh] using h⟩
      · rintro ⟨r, hr, b, hb, h⟩
        by_cases hrk : r = k
        · subst hrk; exact .inr ⟨b, hb, by simpa [fresh] using h⟩
        · exact .inl ⟨r, by omega, b, hb, h⟩

end Sys2Proof.Machine
end

