-- ==== Sys2Proof/Laws/Ops.lean ====
section
/-! SUPPORT. One lemma per shared operation of the machine, saying once what it does: the ends of the ALU handlers, the no-op
default, FS and raising a fault (spec rules R38, R202), and placing bytes in memory (R234). -/

namespace Sys2Proof.Machine

/-! ### Ends of handlers -/

theorem advance_pcMoved (s : State) : PcMoved 2 s (advance s) := toNat_advance s

theorem skipIf_pcMoved (c : Bool) (s : State) : PcMoved (if c then 4 else 2) s (skipIf c s) := toNat_skipIf c s

theorem writePc_keeps (n : Nat) (s : State) : KeepsAllBut [] s (writePc n s) :=
  ⟨fun _ _ => rfl, rfl, rfl, fun _ => rfl, fun _ _ => rfl, rfl, fun _ => rfl, rfl⟩

theorem skipIf_keeps (c : Bool) (s : State) : KeepsAllBut [] s (skipIf c s) := writePc_keeps _ s

/-- The no-op default only advances (R117). -/
theorem nopDefault_onlyAdvances (s : State) : OnlyAdvances s (nopDefault s) :=
  ⟨toNat_advance s, writePc_keeps _ s⟩

theorem finishPlain_pcMoved (x : RegIdx) (r : Byte) (s : State) : PcMoved 2 s (finishPlain x r s) :=
  toNat_advance (writeV x r s)

@[simp] theorem readV_finishPlain_same (x : RegIdx) (r : Byte) (s : State) : readV (finishPlain x r s) x = r := by
  simp [finishPlain]

theorem finishPlain_keeps (x : RegIdx) (r : Byte) (s : State) : KeepsAllBut [x] s (finishPlain x r s) where
  regs q hq := by
    have hne : x ≠ q := fun h => hq (by simp [h])
    simp [finishPlain, readV_writeV_of_ne hne]
  i := rfl
  sp := rfl
  stack _ := rfl
  screen _ _ := rfl
  fs := rfl
  mem _ := rfl
  draws := rfl

theorem finishFlag_pcMoved (x : RegIdx) (r : Byte) (f : Bool) (s : State) : PcMoved 2 s (finishFlag x r f s) :=
  toNat_advance (writeV VF (boolByte f) (writeV x r s))

/-- The flag is written last, so VF holds it whatever the destination is (R150). -/
@[simp] theorem readV_finishFlag_vf (x : RegIdx) (r : Byte) (f : Bool) (s : State) :
    readV (finishFlag x r f s) VF = boolByte f := by
  simp [finishFlag]

/-- A destination other than VF holds the result (R150). -/
theorem readV_finishFlag_dest {x : RegIdx} (hx : x ≠ VF) (r : Byte) (f : Bool) (s : State) :
    readV (finishFlag x r f s) x = r := by
  simp [finishFlag, readV_writeV_of_ne (Ne.symm hx)]

theorem finishFlag_keeps (x : RegIdx) (r : Byte) (f : Bool) (s : State) : KeepsAllBut [x, VF] s (finishFlag x r f s) where
  regs q hq := by
    have hx : x ≠ q := fun h => hq (by simp [h])
    have hf : VF ≠ q := fun h => hq (by simp [h])
    simp [finishFlag, readV_writeV_of_ne hx, readV_writeV_of_ne hf]
  i := rfl
  sp := rfl
  stack _ := rfl
  screen _ _ := rfl
  fs := rfl
  mem _ := rfl
  draws := rfl

/-- A register changed beforehand is changed afterwards too, unless the handler's end overwrites it. -/
theorem finishPlain_writeV (x : RegIdx) (q : Byte) (r : RegIdx) (b : Byte) (s : State) :
    finishPlain x q (writeV r b s) = if r = x then finishPlain x q s else writeV r b (finishPlain x q s) := by
  split
  · subst r
    simp [finishPlain]
  · rename_i h
    exact congrArg advance (writeV_comm (Ne.symm h) q b s)

/-- A register changed beforehand is changed afterwards too, unless the handler's end overwrites it. -/
theorem finishFlag_writeV (x : RegIdx) (q : Byte) (f : Bool) (r : RegIdx) (b : Byte) (s : State) :
    finishFlag x q f (writeV r b s) = if r = x ∨ r = VF then finishFlag x q f s else writeV r b (finishFlag x q f s) := by
  by_cases hx : r = x
  · subst r
    simp [finishFlag]
  · by_cases hf : r = VF
    · subst r
      rw [if_pos (.inr rfl), finishFlag, writeV_comm (Ne.symm hx), writeV_writeV_same]
      rfl
    · rw [if_neg (by simp [hx, hf]), finishFlag, writeV_comm (Ne.symm hx), writeV_comm (Ne.symm hf)]
      rfl

/-! ### Results and flags as numbers (R157) -/

theorem toNat_boolByte (c : Bool) : (boolByte c).toNat = if c then 1 else 0 := by cases c <;> rfl

theorem toNat_addByte (a b : Byte) : (addByte a b).toNat = (a.toNat + b.toNat) % 256 := by
  simp [addByte]

theorem toNat_subByte (a b : Byte) : (subByte a b).toNat = (a.toNat + 256 - b.toNat) % 256 := by
  simp [subByte]

theorem toNat_addrOperand (nnn : Addr) : (addrOperand nnn).toNat = nnn.toNat := by
  have := nnn.isLt
  simp only [addrOperand, BitVec.toNat_setWidth, BitVec.zeroExtend]
  omega

theorem toNat_returnAddress (s : State) : (returnAddress s).toNat = (s.pc.toNat + 2) % 0x1000 := by
  simp only [returnAddress, BitVec.toNat_ofNat]; omega

/-! ### FS (R38, R201, R202) -/

@[simp] theorem fsCause_fsWord (c : BitVec 2) (a : Addr) : fsCause (fsWord c a) = c := by
  apply BitVec.eq_of_getLsbD_eq; intro i hi
  simp only [fsCause, fsWord, BitVec.getLsbD_extractLsb', BitVec.getLsbD_or, BitVec.getLsbD_shiftLeft,
    BitVec.getLsbD_setWidth, BitVec.zeroExtend]
  interval_cases i <;> simp

@[simp] theorem fsFpc_fsWord (c : BitVec 2) (a : Addr) : fsFpc (fsWord c a) = a := by
  apply BitVec.eq_of_getLsbD_eq; intro i hi
  simp only [fsFpc, fsWord, BitVec.getLsbD_extractLsb', BitVec.getLsbD_or, BitVec.getLsbD_shiftLeft,
    BitVec.getLsbD_setWidth, BitVec.zeroExtend]
  interval_cases i <;> simp

/-- The unused bits of FS read as 0 (R38). -/
theorem fsWord_unused (c : BitVec 2) (a : Addr) : fsWord c a &&& 0xF000FFFC#32 = 0 := by
  apply BitVec.eq_of_getLsbD_eq; intro i hi
  simp only [fsWord, BitVec.getLsbD_and, BitVec.getLsbD_or, BitVec.getLsbD_shiftLeft, BitVec.getLsbD_setWidth,
    BitVec.zeroExtend]
  interval_cases i <;> simp

/-- A state is faulted exactly when its CAUSE is not 0 (R203). -/
theorem pendingFault_eq_none_iff (s : State) : pendingFault s = none ↔ s.Unfaulted := by
  have key : ∀ c : BitVec 2, faultOfCause c = none ↔ c = 0 := by decide
  exact key _

/-- Raising a fault that this hardware can raise leaves a legal FS (R38). -/
theorem fsLegal_raiseFault {f : Fault} (hf : f ≠ .spriteRange) (s : State) : FsLegal (raiseFault f s).fs := by
  refine ⟨fsWord_unused _ _, ?_, ?_⟩
  · cases f <;> simp_all [causeCode]
  · cases f <;> simp_all [causeCode]

/-- Raising a fault keeps everything but FS, pc included (R202). -/
theorem raiseFault_pc_regs (f : Fault) (s : State) :
    (raiseFault f s).pc = s.pc ∧ (raiseFault f s).v = s.v ∧ (raiseFault f s).i = s.i ∧ (raiseFault f s).sp = s.sp ∧
      (raiseFault f s).stack = s.stack ∧ (raiseFault f s).screen = s.screen ∧ (raiseFault f s).mem = s.mem :=
  ⟨rfl, rfl, rfl, rfl, rfl, rfl, rfl⟩

/-! ### Placing bytes in memory (R234) -/

/-- Placing bytes changes memory alone. -/
theorem placeBytes_eq : ∀ (a : Nat) (bytes : List Byte) (s : State),
    placeBytes a bytes s = { s with mem := (placeBytes a bytes s).mem }
  | _, [], _ => rfl
  | a, b :: rest, s => by
    rw [placeBytes, placeBytes_eq (a + 1) rest (memWrite (toAddr a) b s)]
    rfl

theorem placeBytes_wf : ∀ (a : Nat) (bytes : List Byte) {s : State}, s.mem.wf = true →
    (placeBytes a bytes s).mem.wf = true
  | _, [], _, h => h
  | a, b :: rest, _, h => placeBytes_wf (a + 1) rest (Memory.wf_store h (toAddr a) b)

/-- A byte read after a placement that does not run past the end of memory. -/
theorem memRead_placeBytes : ∀ (a : Nat) (bytes : List Byte) {s : State}, s.mem.wf = true → a + bytes.length ≤ 0x1000 →
    ∀ x : Addr, memRead (placeBytes a bytes s) x =
      if a ≤ x.toNat ∧ x.toNat < a + bytes.length then bytes.getD (x.toNat - a) 0 else memRead s x
  | a, [], _, _, _, x => by
    rw [placeBytes, if_neg (by simp only [List.length_nil]; omega)]
  | a, b :: rest, s, h, hlen, x => by
    simp only [List.length_cons] at hlen ⊢
    rw [placeBytes, memRead_placeBytes (a + 1) rest (Memory.wf_store h (toAddr a) b) (by omega) x,
      memRead_memWrite h]
    have ha : (toAddr a).toNat = a := by simp only [toAddr, BitVec.toNat_ofNat]; omega
    by_cases hx : toAddr a = x
    · have hxa : x.toNat = a := by rw [← hx, ha]
      rw [if_neg (by omega), if_pos hx, if_pos (by omega), hxa]
      simp
    · have hxa : x.toNat ≠ a := fun h' => hx (BitVec.eq_of_toNat_eq (by omega))
      rw [if_neg hx]
      by_cases hin : a + 1 ≤ x.toNat ∧ x.toNat < a + 1 + rest.length
      · rw [if_pos hin, if_pos (by omega)]
        have : x.toNat - a = (x.toNat - (a + 1)) + 1 := by omega
        rw [this, List.getD_cons_succ]
      · rw [if_neg hin, if_neg (by omega)]

end Sys2Proof.Machine
end

