-- ==== Sys2Proof/Laws/PerInstr.lean ====
section
/-! SUPPORT. Statements for every instruction as syntax. Family RowMatch: the word an instruction encodes to matches the
instruction's own row of the opcode table (spec rule R89), and that row is in the table. -/

namespace Sys2Proof.Laws

/-- The encoding of `i` lies in the row of `i`. -/
def RowMatch.Statement (i : Instr) : Prop := tableRow i ∈ tableRows ∧ rowMatches (tableRow i) (encode i) = true

theorem RowMatch.cls : RowMatch.Statement .cls :=
  ⟨by simp [tableRow, tableRows], rfl⟩

theorem RowMatch.ret : RowMatch.Statement .ret :=
  ⟨by simp [tableRow, tableRows], rfl⟩

theorem RowMatch.jp (nnn : Addr) : RowMatch.Statement (.jp nnn) :=
  ⟨by simp [tableRow, tableRows], (rowMatches_group 0x1 _).mpr (fieldG_wordOfAddr _ _)⟩

theorem RowMatch.call (nnn : Addr) : RowMatch.Statement (.call nnn) :=
  ⟨by simp [tableRow, tableRows], (rowMatches_group 0x2 _).mpr (fieldG_wordOfAddr _ _)⟩

theorem RowMatch.seImm (x : RegIdx) (kk : Byte) : RowMatch.Statement (.seImm x kk) :=
  ⟨by simp [tableRow, tableRows], (rowMatches_group 0x3 _).mpr (fieldG_wordOfByte _ _ _)⟩

theorem RowMatch.sneImm (x : RegIdx) (kk : Byte) : RowMatch.Statement (.sneImm x kk) :=
  ⟨by simp [tableRow, tableRows], (rowMatches_group 0x4 _).mpr (fieldG_wordOfByte _ _ _)⟩

theorem RowMatch.seReg (x : RegIdx) (y : RegIdx) (n : Nibble) : RowMatch.Statement (.seReg x y n) :=
  ⟨by simp [tableRow, tableRows], (rowMatches_group 0x5 _).mpr (fieldG_wordOfNibbles _ _ _ _)⟩

theorem RowMatch.ldImm (x : RegIdx) (kk : Byte) : RowMatch.Statement (.ldImm x kk) :=
  ⟨by simp [tableRow, tableRows], (rowMatches_group 0x6 _).mpr (fieldG_wordOfByte _ _ _)⟩

theorem RowMatch.addImm (x : RegIdx) (kk : Byte) : RowMatch.Statement (.addImm x kk) :=
  ⟨by simp [tableRow, tableRows], (rowMatches_group 0x7 _).mpr (fieldG_wordOfByte _ _ _)⟩

theorem RowMatch.ldReg (x : RegIdx) (y : RegIdx) : RowMatch.Statement (.ldReg x y) :=
  ⟨by simp [tableRow, tableRows], (rowMatches_groupNibble 0x8 0x0 _).mpr ⟨fieldG_wordOfNibbles _ _ _ _, fieldN_wordOfNibbles _ _ _ _⟩⟩

theorem RowMatch.orReg (x : RegIdx) (y : RegIdx) : RowMatch.Statement (.orReg x y) :=
  ⟨by simp [tableRow, tableRows], (rowMatches_groupNibble 0x8 0x1 _).mpr ⟨fieldG_wordOfNibbles _ _ _ _, fieldN_wordOfNibbles _ _ _ _⟩⟩

theorem RowMatch.andReg (x : RegIdx) (y : RegIdx) : RowMatch.Statement (.andReg x y) :=
  ⟨by simp [tableRow, tableRows], (rowMatches_groupNibble 0x8 0x2 _).mpr ⟨fieldG_wordOfNibbles _ _ _ _, fieldN_wordOfNibbles _ _ _ _⟩⟩

theorem RowMatch.xorReg (x : RegIdx) (y : RegIdx) : RowMatch.Statement (.xorReg x y) :=
  ⟨by simp [tableRow, tableRows], (rowMatches_groupNibble 0x8 0x3 _).mpr ⟨fieldG_wordOfNibbles _ _ _ _, fieldN_wordOfNibbles _ _ _ _⟩⟩

theorem RowMatch.addReg (x : RegIdx) (y : RegIdx) : RowMatch.Statement (.addReg x y) :=
  ⟨by simp [tableRow, tableRows], (rowMatches_groupNibble 0x8 0x4 _).mpr ⟨fieldG_wordOfNibbles _ _ _ _, fieldN_wordOfNibbles _ _ _ _⟩⟩

theorem RowMatch.subReg (x : RegIdx) (y : RegIdx) : RowMatch.Statement (.subReg x y) :=
  ⟨by simp [tableRow, tableRows], (rowMatches_groupNibble 0x8 0x5 _).mpr ⟨fieldG_wordOfNibbles _ _ _ _, fieldN_wordOfNibbles _ _ _ _⟩⟩

theorem RowMatch.shr (x : RegIdx) (y : RegIdx) : RowMatch.Statement (.shr x y) :=
  ⟨by simp [tableRow, tableRows], (rowMatches_groupNibble 0x8 0x6 _).mpr ⟨fieldG_wordOfNibbles _ _ _ _, fieldN_wordOfNibbles _ _ _ _⟩⟩

theorem RowMatch.subnReg (x : RegIdx) (y : RegIdx) : RowMatch.Statement (.subnReg x y) :=
  ⟨by simp [tableRow, tableRows], (rowMatches_groupNibble 0x8 0x7 _).mpr ⟨fieldG_wordOfNibbles _ _ _ _, fieldN_wordOfNibbles _ _ _ _⟩⟩

theorem RowMatch.shl (x : RegIdx) (y : RegIdx) : RowMatch.Statement (.shl x y) :=
  ⟨by simp [tableRow, tableRows], (rowMatches_groupNibble 0x8 0xE _).mpr ⟨fieldG_wordOfNibbles _ _ _ _, fieldN_wordOfNibbles _ _ _ _⟩⟩

theorem RowMatch.sneReg (x : RegIdx) (y : RegIdx) (n : Nibble) : RowMatch.Statement (.sneReg x y n) :=
  ⟨by simp [tableRow, tableRows], (rowMatches_group 0x9 _).mpr (fieldG_wordOfNibbles _ _ _ _)⟩

theorem RowMatch.ldI (nnn : Addr) : RowMatch.Statement (.ldI nnn) :=
  ⟨by simp [tableRow, tableRows], (rowMatches_group 0xA _).mpr (fieldG_wordOfAddr _ _)⟩

theorem RowMatch.jpV0 (nnn : Addr) : RowMatch.Statement (.jpV0 nnn) :=
  ⟨by simp [tableRow, tableRows], (rowMatches_group 0xB _).mpr (fieldG_wordOfAddr _ _)⟩

theorem RowMatch.rnd (x : RegIdx) (kk : Byte) : RowMatch.Statement (.rnd x kk) :=
  ⟨by simp [tableRow, tableRows], (rowMatches_group 0xC _).mpr (fieldG_wordOfByte _ _ _)⟩

theorem RowMatch.drw (x : RegIdx) (y : RegIdx) (n : Nibble) : RowMatch.Statement (.drw x y n) :=
  ⟨by simp [tableRow, tableRows], (rowMatches_group 0xD _).mpr (fieldG_wordOfNibbles _ _ _ _)⟩

theorem RowMatch.nop0 (nnn : Addr) : RowMatch.Statement (.nop0 nnn) :=
  ⟨by simp [tableRow, tableRows], (rowMatches_group 0x0 _).mpr (fieldG_wordOfAddr _ _)⟩

theorem RowMatch.nop88 (x : RegIdx) (y : RegIdx) : RowMatch.Statement (.nop88 x y) :=
  ⟨by simp [tableRow, tableRows], (rowMatches_groupNibble 0x8 0x8 _).mpr ⟨fieldG_wordOfNibbles _ _ _ _, fieldN_wordOfNibbles _ _ _ _⟩⟩

theorem RowMatch.nop89 (x : RegIdx) (y : RegIdx) : RowMatch.Statement (.nop89 x y) :=
  ⟨by simp [tableRow, tableRows], (rowMatches_groupNibble 0x8 0x9 _).mpr ⟨fieldG_wordOfNibbles _ _ _ _, fieldN_wordOfNibbles _ _ _ _⟩⟩

theorem RowMatch.nop8A (x : RegIdx) (y : RegIdx) : RowMatch.Statement (.nop8A x y) :=
  ⟨by simp [tableRow, tableRows], (rowMatches_groupNibble 0x8 0xA _).mpr ⟨fieldG_wordOfNibbles _ _ _ _, fieldN_wordOfNibbles _ _ _ _⟩⟩

theorem RowMatch.nop8B (x : RegIdx) (y : RegIdx) : RowMatch.Statement (.nop8B x y) :=
  ⟨by simp [tableRow, tableRows], (rowMatches_groupNibble 0x8 0xB _).mpr ⟨fieldG_wordOfNibbles _ _ _ _, fieldN_wordOfNibbles _ _ _ _⟩⟩

theorem RowMatch.nop8C (x : RegIdx) (y : RegIdx) : RowMatch.Statement (.nop8C x y) :=
  ⟨by simp [tableRow, tableRows], (rowMatches_groupNibble 0x8 0xC _).mpr ⟨fieldG_wordOfNibbles _ _ _ _, fieldN_wordOfNibbles _ _ _ _⟩⟩

theorem RowMatch.nop8D (x : RegIdx) (y : RegIdx) : RowMatch.Statement (.nop8D x y) :=
  ⟨by simp [tableRow, tableRows], (rowMatches_groupNibble 0x8 0xD _).mpr ⟨fieldG_wordOfNibbles _ _ _ _, fieldN_wordOfNibbles _ _ _ _⟩⟩

theorem RowMatch.nop8F (x : RegIdx) (y : RegIdx) : RowMatch.Statement (.nop8F x y) :=
  ⟨by simp [tableRow, tableRows], (rowMatches_groupNibble 0x8 0xF _).mpr ⟨fieldG_wordOfNibbles _ _ _ _, fieldN_wordOfNibbles _ _ _ _⟩⟩

theorem RowMatch.nopEx9E (x : RegIdx) : RowMatch.Statement (.nopEx9E x) :=
  ⟨by simp [tableRow, tableRows], (rowMatches_groupByte 0xE 0x9E _).mpr ⟨fieldG_wordOfByte _ _ _, fieldKk_wordOfByte _ _ _⟩⟩

theorem RowMatch.nopExA1 (x : RegIdx) : RowMatch.Statement (.nopExA1 x) :=
  ⟨by simp [tableRow, tableRows], (rowMatches_groupByte 0xE 0xA1 _).mpr ⟨fieldG_wordOfByte _ _ _, fieldKk_wordOfByte _ _ _⟩⟩

theorem RowMatch.nopEx (x : RegIdx) (kk : Byte) : RowMatch.Statement (.nopEx x kk) :=
  ⟨by simp [tableRow, tableRows], (rowMatches_group 0xE _).mpr (fieldG_wordOfByte _ _ _)⟩

theorem RowMatch.nopFx07 (x : RegIdx) : RowMatch.Statement (.nopFx07 x) :=
  ⟨by simp [tableRow, tableRows], (rowMatches_groupByte 0xF 0x07 _).mpr ⟨fieldG_wordOfByte _ _ _, fieldKk_wordOfByte _ _ _⟩⟩

theorem RowMatch.nopFx0A (x : RegIdx) : RowMatch.Statement (.nopFx0A x) :=
  ⟨by simp [tableRow, tableRows], (rowMatches_groupByte 0xF 0x0A _).mpr ⟨fieldG_wordOfByte _ _ _, fieldKk_wordOfByte _ _ _⟩⟩

theorem RowMatch.nopFx15 (x : RegIdx) : RowMatch.Statement (.nopFx15 x) :=
  ⟨by simp [tableRow, tableRows], (rowMatches_groupByte 0xF 0x15 _).mpr ⟨fieldG_wordOfByte _ _ _, fieldKk_wordOfByte _ _ _⟩⟩

theorem RowMatch.nopFx18 (x : RegIdx) : RowMatch.Statement (.nopFx18 x) :=
  ⟨by simp [tableRow, tableRows], (rowMatches_groupByte 0xF 0x18 _).mpr ⟨fieldG_wordOfByte _ _ _, fieldKk_wordOfByte _ _ _⟩⟩

theorem RowMatch.nopFx29 (x : RegIdx) : RowMatch.Statement (.nopFx29 x) :=
  ⟨by simp [tableRow, tableRows], (rowMatches_groupByte 0xF 0x29 _).mpr ⟨fieldG_wordOfByte _ _ _, fieldKk_wordOfByte _ _ _⟩⟩

theorem RowMatch.nopFx33 (x : RegIdx) : RowMatch.Statement (.nopFx33 x) :=
  ⟨by simp [tableRow, tableRows], (rowMatches_groupByte 0xF 0x33 _).mpr ⟨fieldG_wordOfByte _ _ _, fieldKk_wordOfByte _ _ _⟩⟩

theorem RowMatch.nopFx55 (x : RegIdx) : RowMatch.Statement (.nopFx55 x) :=
  ⟨by simp [tableRow, tableRows], (rowMatches_groupByte 0xF 0x55 _).mpr ⟨fieldG_wordOfByte _ _ _, fieldKk_wordOfByte _ _ _⟩⟩

theorem RowMatch.nopFx65 (x : RegIdx) : RowMatch.Statement (.nopFx65 x) :=
  ⟨by simp [tableRow, tableRows], (rowMatches_groupByte 0xF 0x65 _).mpr ⟨fieldG_wordOfByte _ _ _, fieldKk_wordOfByte _ _ _⟩⟩

theorem RowMatch.nopFx1E (x : RegIdx) : RowMatch.Statement (.nopFx1E x) :=
  ⟨by simp [tableRow, tableRows], (rowMatches_groupByte 0xF 0x1E _).mpr ⟨fieldG_wordOfByte _ _ _, fieldKk_wordOfByte _ _ _⟩⟩

theorem RowMatch.nopFx (x : RegIdx) (kk : Byte) : RowMatch.Statement (.nopFx x kk) :=
  ⟨by simp [tableRow, tableRows], (rowMatches_group 0xF _).mpr (fieldG_wordOfByte _ _ _)⟩

end Sys2Proof.Laws
end

