-- ==== Sys2Proof/Laws/Step.lean ====
section
/-! SUPPORT. What a handler and a step can do, said once (spec rules R110, R114, R120): every effect an instruction has is one
of a few shapes, and a step is the handler of the decoded instruction, or the fault of a faulted state. -/

namespace Sys2Proof.Machine

/-- The shapes of a handler's effect: `Effect i s t` says how `t` comes from `s` by `i`. -/
inductive Effect : Instr → State → State → Prop where
  | moved (i s n) (h : ∀ x kk, i ≠ .rnd x kk) : Effect i s (writePc n s)
  | plain (i s x r) (h : ∀ x kk, i ≠ .rnd x kk) (hx : writesV i = [x]) : Effect i s (finishPlain x r s)
  | random (x kk s) : Effect (.rnd x kk) s (finishPlain x (randOffered s &&& kk) (takeRand s))
  | flagged (i s x r f) (h : ∀ x kk, i ≠ .rnd x kk) (hx : writesV i = [x, VF]) : Effect i s (finishFlag x r f s)
  | address (nnn s) : Effect (.ldI nnn) s (advance (writeI (addrOperand nnn) s))
  | pushed (nnn s) (h : s.sp.val < 16) :
      Effect (.call nnn) s (writePc (addrOperand nnn).toNat (pushEntry (returnAddress s) s h))
  | popped (s) (h : 0 < s.sp.val) : Effect .ret s (writePc (topEntry s h).toNat (dropEntry s))
  | overflowed (nnn s) (h : ¬ s.sp.val < 16) : Effect (.call nnn) s (raiseFault .stackOverflow s)
  | underflowed (s) (h : ¬ 0 < s.sp.val) : Effect .ret s (raiseFault .stackUnderflow s)
  | cleared (s) : Effect .cls s (advance (writeScreen clearScreen s))
  | drawn (x y n s scr col) (h : drawSprite s s.i.toNat (readV s x).toNat (readV s y).toNat n.toNat = (scr, col)) :
      Effect (.drw x y n) s (advance (writeV VF (boolByte col) (writeScreen scr s)))

/-- Under this hardware's policy a draw never faults (R182, R200). -/
theorem execDrw_eq (x y : RegIdx) (n : Nibble) (s : State) :
    execDrw x y n s = .next (advance (writeV VF
      (boolByte (drawSprite s s.i.toNat (readV s x).toNat (readV s y).toNat n.toNat).2)
      (writeScreen (drawSprite s s.i.toNat (readV s x).toNat (readV s y).toNat n.toNat).1 s))) := by
  simp [execDrw, execDrwWith, params, sampleXY]

/-- A call that finds room pushes and jumps (R132). -/
theorem exec_call_of_room (nnn : Addr) {s : State} (h : s.sp.val < 16) :
    exec (.call nnn) s = .next (writePc (addrOperand nnn).toNat (pushEntry (returnAddress s) s h)) := by
  simp only [exec, execCall, h, dite_true]

/-- A call on a full stack raises StackOverflow (R132). -/
theorem exec_call_of_full (nnn : Addr) {s : State} (h : ¬ s.sp.val < 16) :
    exec (.call nnn) s = .next (raiseFault .stackOverflow s) := by
  simp only [exec, execCall, h, dite_false]

/-- A return that finds an entry pops it (R130). -/
theorem exec_ret_of_entry {s : State} (h : 0 < s.sp.val) :
    exec .ret s = .next (writePc (topEntry s h).toNat (dropEntry s)) := by
  simp only [exec, execRet, h, dite_true]

/-- A return on an empty stack raises StackUnderflow (R130). -/
theorem exec_ret_of_empty {s : State} (h : ¬ 0 < s.sp.val) : exec .ret s = .next (raiseFault .stackUnderflow s) := by
  simp only [exec, execRet, h, dite_false]

/-- Every handler answers a next state, by one of the shapes. -/
theorem exec_effect (i : Instr) (s : State) : ∃ t, exec i s = .next t ∧ Effect i s t := by
  cases i with
  | cls => exact ⟨_, rfl, .cleared s⟩
  | ret =>
    by_cases h : 0 < s.sp.val
    · exact ⟨_, exec_ret_of_entry h, .popped s h⟩
    · exact ⟨_, exec_ret_of_empty h, .underflowed s h⟩
  | call nnn =>
    by_cases h : s.sp.val < 16
    · exact ⟨_, exec_call_of_room nnn h, .pushed nnn s h⟩
    · exact ⟨_, exec_call_of_full nnn h, .overflowed nnn s h⟩
  | ldI nnn => exact ⟨_, rfl, .address nnn s⟩
  | rnd x kk => exact ⟨_, rfl, .random x kk s⟩
  | drw x y n => exact ⟨_, execDrw_eq x y n s, .drawn x y n s _ _ rfl⟩
  | ldImm x kk => exact ⟨_, rfl, .plain _ s x _ (by simp) rfl⟩
  | addImm x kk => exact ⟨_, rfl, .plain _ s x _ (by simp) rfl⟩
  | ldReg x y => exact ⟨_, rfl, .plain _ s x _ (by simp) rfl⟩
  | orReg x y => exact ⟨_, rfl, .plain _ s x _ (by simp) rfl⟩
  | andReg x y => exact ⟨_, rfl, .plain _ s x _ (by simp) rfl⟩
  | xorReg x y => exact ⟨_, rfl, .plain _ s x _ (by simp) rfl⟩
  | addReg x y => exact ⟨_, rfl, .flagged _ s x _ _ (by simp) rfl⟩
  | subReg x y => exact ⟨_, rfl, .flagged _ s x _ _ (by simp) rfl⟩
  | shr x y => exact ⟨_, rfl, .flagged _ s x _ _ (by simp) rfl⟩
  | subnReg x y => exact ⟨_, rfl, .flagged _ s x _ _ (by simp) rfl⟩
  | shl x y => exact ⟨_, rfl, .flagged _ s x _ _ (by simp) rfl⟩
  | _ => exact ⟨_, rfl, .moved _ s _ (by simp)⟩

/-- The inversion lemma of `exec`: a next state comes by one of the shapes. -/
theorem effect_of_exec {i : Instr} {s t : State} (h : exec i s = .next t) : Effect i s t := by
  obtain ⟨u, hu, he⟩ := exec_effect i s
  rw [hu] at h
  cases h
  exact he

/-- A step of an unfaulted state is the handler of the decoded instruction (R110). -/
theorem step_of_unfaulted {s : State} (h : s.Unfaulted) : step s = exec (decode (fetch s)) s := by
  simp [step, (pendingFault_eq_none_iff s).mpr h]

/-- A faulted state takes no step (R120). -/
theorem step_of_pending {s : State} {f : Fault} (h : pendingFault s = some f) : step s = .fault f := by
  simp [step, h]

/-- The inversion lemma of `step`: it answers a next state exactly from an unfaulted state, by the decoded handler. -/
theorem step_eq_next_iff (s t : State) : step s = .next t ↔ s.Unfaulted ∧ exec (decode (fetch s)) s = .next t := by
  rw [← pendingFault_eq_none_iff]
  unfold step
  cases h : pendingFault s <;> simp

/-- The step under this hardware's parameters is the step. -/
theorem execWith_params (i : Instr) (s : State) : execWith params i s = exec i s := by
  cases i <;> simp [execWith, params, exec, execDrw]

end Sys2Proof.Machine
end

