-- ==== Sys2Proof/Laws/Run.lean ====
section
/-! SUPPORT. What a run does at its first step (spec rules R120, R121): one lemma per case, so that no proof unfolds `runFor` or
`runTo`. -/

namespace Sys2Proof.Machine

theorem stopHere_of_unfaulted {s : State} (h : s.Unfaulted) : stopHere s = .stopped s := by
  simp [stopHere, (pendingFault_eq_none_iff s).mpr h]

theorem stopHere_of_pending {s : State} {f : Fault} (h : pendingFault s = some f) : stopHere s = .faulted f s := by
  simp [stopHere, h]

@[simp] theorem runFor_zero (s : State) : runFor 0 s = stopHere s := rfl

/-- A step that answers a next state is the first of the run. -/
theorem runFor_succ_of_next {s t : State} (h : step s = .next t) (n : Nat) : runFor (n + 1) s = runFor n t := by
  simp [runFor, h]

/-- In a faulted state the run is at its end, however many steps the host still requests. -/
theorem runFor_of_pending {s : State} {f : Fault} (h : pendingFault s = some f) : ∀ n, runFor n s = .faulted f s
  | 0 => stopHere_of_pending h
  | n + 1 => by simp [runFor, step_of_pending h]

/-- A step of a run is either the fault of a faulted state or a next state from an unfaulted one. -/
theorem step_cases (s : State) : (∃ f, pendingFault s = some f) ∨ (s.Unfaulted ∧ ∃ t, step s = .next t) := by
  cases h : pendingFault s with
  | some f => exact .inl ⟨f, rfl⟩
  | none =>
    have hu := (pendingFault_eq_none_iff s).mp h
    obtain ⟨t, ht, -⟩ := exec_effect (decode (fetch s)) s
    exact .inr ⟨hu, t, by rw [step_of_unfaulted hu, ht]⟩

/-- A faulted state ends a watched run, wherever pc is. -/
theorem runTo_of_pending {s : State} {f : Fault} (h : pendingFault s = some f) (watch : Addr) (n : Nat) :
    runTo watch n s = some (.faulted f s) := by
  unfold runTo
  simp [h, stopHere_of_pending h]

/-- At the watched address an unfaulted run ends normally. -/
theorem runTo_of_reached {s : State} (h : s.Unfaulted) {watch : Addr} (hw : s.pc = watch.zeroExtend 16) (n : Nat) :
    runTo watch n s = some (.stopped s) := by
  unfold runTo
  simp [hw, stopHere_of_unfaulted h]

/-- Away from the watched address, with no step left, the run is not at an end. -/
theorem runTo_zero_of_away {s : State} (h : s.Unfaulted) {watch : Addr} (hw : s.pc ≠ watch.zeroExtend 16) :
    runTo watch 0 s = none := by
  unfold runTo
  simp [(pendingFault_eq_none_iff s).mpr h, hw]

/-- Away from the watched address, with a step left, the run takes it. -/
theorem runTo_succ_of_away {s t : State} (h : s.Unfaulted) {watch : Addr} (hw : s.pc ≠ watch.zeroExtend 16)
    (ht : step s = .next t) (n : Nat) : runTo watch (n + 1) s = runTo watch n t := by
  rw [runTo]
  simp [(pendingFault_eq_none_iff s).mpr h, hw, ht]

end Sys2Proof.Machine
end

