-- ==== Sys2Proof/Tests/Slice0.lean ====
section
/-! SUPPORT. The model's own tests: the ill-formed terms, every constructor's decoding from a word written out from spec rule
R85, one-step checks from the vectors of spec/95_test_vectors.md (each names its vector), and, for every statement that has
hypotheses, a concrete case that meets them. -/

namespace Sys2Proof.Tests

open Sys2Proof.Machine

/-! ### WellFormed: each check refuses an ill-formed term -/

theorem test_wf_refuses_00E0 : (Instr.nop0 0x0E0).wf = false := by decide
theorem test_wf_refuses_00EE : (Instr.nop0 0x0EE).wf = false := by decide
theorem test_wf_refuses_Ex9E : (Instr.nopEx 3 0x9E).wf = false := by decide
theorem test_wf_refuses_ExA1 : (Instr.nopEx 3 0xA1).wf = false := by decide
theorem test_wf_refuses_group_f_keys : ∀ kk ∈ [0x07#8, 0x0A, 0x15, 0x18, 0x1E, 0x29, 0x33, 0x55, 0x65], (Instr.nopFx 3 kk).wf = false := by
  decide

/-! ### Decoding: one word for every constructor, its bits written out from R85 (g, x, y, n or kk or nnn) -/

theorem test_decode_cls : decode 0b0000000011100000 = .cls := by decide
theorem test_decode_ret : decode 0b0000000011101110 = .ret := by decide
theorem test_decode_jp : decode 0b0001010111000111 = .jp 0x5C7 := by decide
theorem test_decode_call : decode 0b0010010111000111 = .call 0x5C7 := by decide
theorem test_decode_seImm : decode 0b0011101001011100 = .seImm 10 0x5C := by decide
theorem test_decode_sneImm : decode 0b0100101001011100 = .sneImm 10 0x5C := by decide
theorem test_decode_seReg : decode 0b0101101000111001 = .seReg 10 3 9 := by decide
theorem test_decode_ldImm : decode 0b0110101001011100 = .ldImm 10 0x5C := by decide
theorem test_decode_addImm : decode 0b0111101001011100 = .addImm 10 0x5C := by decide
theorem test_decode_ldReg : decode 0b1000101000110000 = .ldReg 10 3 := by decide
theorem test_decode_orReg : decode 0b1000101000110001 = .orReg 10 3 := by decide
theorem test_decode_andReg : decode 0b1000101000110010 = .andReg 10 3 := by decide
theorem test_decode_xorReg : decode 0b1000101000110011 = .xorReg 10 3 := by decide
theorem test_decode_addReg : decode 0b1000101000110100 = .addReg 10 3 := by decide
theorem test_decode_subReg : decode 0b1000101000110101 = .subReg 10 3 := by decide
theorem test_decode_shr : decode 0b1000101000110110 = .shr 10 3 := by decide
theorem test_decode_subnReg : decode 0b1000101000110111 = .subnReg 10 3 := by decide
theorem test_decode_shl : decode 0b1000101000111110 = .shl 10 3 := by decide
theorem test_decode_sneReg : decode 0b1001101000111001 = .sneReg 10 3 9 := by decide
theorem test_decode_ldI : decode 0b1010010111000111 = .ldI 0x5C7 := by decide
theorem test_decode_jpV0 : decode 0b1011010111000111 = .jpV0 0x5C7 := by decide
theorem test_decode_rnd : decode 0b1100101001011100 = .rnd 10 0x5C := by decide
theorem test_decode_drw : decode 0b1101101000111001 = .drw 10 3 9 := by decide
theorem test_decode_nop0 : decode 0b0000010111000111 = .nop0 0x5C7 := by decide
theorem test_decode_nop88 : decode 0b1000101000111000 = .nop88 10 3 := by decide
theorem test_decode_nop89 : decode 0b1000101000111001 = .nop89 10 3 := by decide
theorem test_decode_nop8A : decode 0b1000101000111010 = .nop8A 10 3 := by decide
theorem test_decode_nop8B : decode 0b1000101000111011 = .nop8B 10 3 := by decide
theorem test_decode_nop8C : decode 0b1000101000111100 = .nop8C 10 3 := by decide
theorem test_decode_nop8D : decode 0b1000101000111101 = .nop8D 10 3 := by decide
theorem test_decode_nop8F : decode 0b1000101000111111 = .nop8F 10 3 := by decide
theorem test_decode_nopEx9E : decode 0b1110101010011110 = .nopEx9E 10 := by decide
theorem test_decode_nopExA1 : decode 0b1110101010100001 = .nopExA1 10 := by decide
theorem test_decode_nopEx : decode 0b1110101001011100 = .nopEx 10 0x5C := by decide
theorem test_decode_nopFx07 : decode 0b1111101000000111 = .nopFx07 10 := by decide
theorem test_decode_nopFx0A : decode 0b1111101000001010 = .nopFx0A 10 := by decide
theorem test_decode_nopFx15 : decode 0b1111101000010101 = .nopFx15 10 := by decide
theorem test_decode_nopFx18 : decode 0b1111101000011000 = .nopFx18 10 := by decide
theorem test_decode_nopFx29 : decode 0b1111101000101001 = .nopFx29 10 := by decide
theorem test_decode_nopFx33 : decode 0b1111101000110011 = .nopFx33 10 := by decide
theorem test_decode_nopFx55 : decode 0b1111101001010101 = .nopFx55 10 := by decide
theorem test_decode_nopFx65 : decode 0b1111101001100101 = .nopFx65 10 := by decide
theorem test_decode_nopFx1E : decode 0b1111101000011110 = .nopFx1E 10 := by decide
theorem test_decode_nopFx : decode 0b1111101001011100 = .nopFx 10 0x5C := by decide

theorem test_decode_truncated : decodeBytes [0x60] = .error .truncated := by rfl
theorem test_decode_bytes_rest : decodeBytes [0x60, 0x05, 0x30] = .ok (.ldImm 0 0x05, [0x30]) := by rfl
theorem test_encode_bytes_call : encodeBytes (.call 0x20A) = [0x22, 0x0A] := by decide
theorem test_table_word_draw : decodeTableWord 16 0xD012 = some (.drw 0 1 2) := by decide

/-! ### Helpers: a small start state, and one step of a word placed at pc -/

/-- The registers listed set to the bytes listed. -/
def withRegs (l : List (RegIdx × Byte)) (s : State) : State := l.foldl (fun t p => writeV p.1 p.2 t) s

/-- The reset state at another pc. -/
def startAt (pc : Word) : State := { State.reset with pc := pc }

/-- The next state of one step of the word placed at pc. -/
def stepWord (w : Nat) (s : State) : Option State :=
  match step (s.withFetchWord 16 w) with
  | .next t => some t
  | .fault _ | .refused _ => none

/-- The next state of one step under given parameters. -/
def stepWordWith (p : Params) (w : Nat) (s : State) : Option State :=
  match stepWith p (s.withFetchWord 16 w) with
  | .next t => some t
  | .fault _ | .refused _ => none

/-- One pixel set. -/
def withPixel (c : Fin 64) (r : Fin 32) (s : State) : State := writeScreen (s.screen.setPixel c r true) s

/-- I and the sprite bytes at 0x300. -/
def withSprite (bytes : List Byte) (s : State) : State := placeBytes 0x300 bytes (writeI 0x300 s)

/-! ### One step of every family, from the vectors of 95_test_vectors.md -/

theorem test_fe2_nop_wraps :
    (stepWord 0x0000 (startAt 0xFFE)).map (fun t => t.pc) = some (0x000) := by decide
-- FE-3: the word 0x60F0 is fetched across the wrap, its second byte being the first font byte
theorem test_fe3_fetch_wraps :
    (match step (memWrite 0xFFF 0x60 (startAt 0xFFF)) with | .next t => some (readV t 0, t.pc) | _ => none) =
    some (0xF0, 0x001) := by decide
theorem test_fe4_odd_pc :
    (stepWord 0x6123 (startAt 0x201)).map (fun t => (readV t 1, t.pc)) = some (0x23, 0x203) := by decide
theorem test_fe5_01e0_full12 :
    (stepWord 0x01E0 (withPixel 0 0 State.reset)).map (fun t => (t.screen.pixel 0 0, t.pc)) = some (true, 0x202) := by decide
theorem test_fe6_01e0_low_byte :
    (stepWordWith ⟨.lowByte, .wrap, .snapshot⟩ 0x01E0 (withPixel 0 0 State.reset)).map (fun t => (t.screen.pixel 0 0, t.pc)) =
    some (false, 0x202) := by decide
-- FE-10 to FE-20: the out-of-scope and unmentioned words
theorem test_fe10_ex9e :
    (stepWord 0xE09E (withRegs [(0, 5)] State.reset)).map (fun t => t.pc) = some (0x202) := by decide
theorem test_fe11_exa1 :
    (stepWord 0xE0A1 (withRegs [(0, 5)] State.reset)).map (fun t => t.pc) = some (0x202) := by decide
theorem test_fe12_fx1e :
    (stepWord 0xF01E (writeI 0x100 (withRegs [(0, 5)] State.reset))).map (fun t => (t.i, t.pc)) = some (0x100, 0x202) := by decide
theorem test_fe13_fx33 :
    (stepWord 0xF033 (writeI 0x300 (withRegs [(0, 0xFF)] State.reset))).map (fun t => (memRead t 0x300, t.pc)) = some (0x00, 0x202) := by decide
theorem test_fe14_fx55 :
    (stepWord 0xF055 (writeI 0x300 (withRegs [(0, 0x11)] State.reset))).map (fun t => (memRead t 0x300, t.pc)) = some (0x00, 0x202) := by decide
theorem test_fe15_fx65 :
    (stepWord 0xF065 (withSprite [0x99] State.reset)).map (fun t => (readV t 0, t.pc)) = some (0x00, 0x202) := by decide
theorem test_fe16_fx0a :
    (stepWord 0xF00A (State.reset)).map (fun t => t.pc) = some (0x202) := by decide
theorem test_fe17_fx29 :
    (stepWord 0xF029 (writeI 0x123 State.reset)).map (fun t => (t.i, t.pc)) = some (0x123, 0x202) := by decide
theorem test_fx07 :
    (stepWord 0xF007 (withRegs [(0, 5)] State.reset)).map (fun t => (readV t 0, t.pc)) = some (5, 0x202) := by decide
theorem test_fx15 :
    (stepWord 0xF015 (State.reset)).map (fun t => t.pc) = some (0x202) := by decide
theorem test_fx18 :
    (stepWord 0xF018 (State.reset)).map (fun t => t.pc) = some (0x202) := by decide
theorem test_fe18_8xy8 :
    (stepWord 0x8008 (withRegs [(0, 0x42), (15, 1)] State.reset)).map (fun t => (readV t 0, readV t VF, t.pc)) = some (0x42, 1, 0x202) := by decide
theorem test_fe19_8xyf :
    (stepWord 0x800F (withRegs [(0, 0x42), (15, 1)] State.reset)).map (fun t => (readV t 0, readV t VF, t.pc)) = some (0x42, 1, 0x202) := by decide
theorem test_fe20_ffff :
    (stepWord 0xFFFF (State.reset)).map (fun t => t.pc) = some (0x202) := by decide
theorem test_fe9_sys :
    (stepWord 0x0123 (State.reset)).map (fun t => t.pc) = some (0x202) := by decide
theorem test_exkk :
    (stepWord 0xE000 (State.reset)).map (fun t => t.pc) = some (0x202) := by decide
theorem test_8xy9 :
    (stepWord 0x8019 (withRegs [(0, 0x42), (1, 3)] State.reset)).map (fun t => (readV t 0, readV t VF, t.pc)) = some (0x42, 0, 0x202) := by decide
theorem test_8xya :
    (stepWord 0x801A (withRegs [(0, 0x42), (1, 3)] State.reset)).map (fun t => (readV t 0, readV t VF, t.pc)) = some (0x42, 0, 0x202) := by decide
theorem test_8xyb :
    (stepWord 0x801B (withRegs [(0, 0x42), (1, 3)] State.reset)).map (fun t => (readV t 0, readV t VF, t.pc)) = some (0x42, 0, 0x202) := by decide
theorem test_8xyc :
    (stepWord 0x801C (withRegs [(0, 0x42), (1, 3)] State.reset)).map (fun t => (readV t 0, readV t VF, t.pc)) = some (0x42, 0, 0x202) := by decide
theorem test_8xyd :
    (stepWord 0x801D (withRegs [(0, 0x42), (1, 3)] State.reset)).map (fun t => (readV t 0, readV t VF, t.pc)) = some (0x42, 0, 0x202) := by decide
theorem test_cf2_jp_odd :
    (stepWord 0x1FFF (State.reset)).map (fun t => t.pc) = some (0xFFF) := by decide
theorem test_cf3_jp_idle :
    (stepWord 0x120E (startAt 0x20E)).map (fun t => t.pc) = some (0x20E) := by decide
theorem test_cf5_call_last_slot :
    (stepWord 0x2500 ({ startAt 0x400 with sp := 15 })).map (fun t => (stackEntry t 15, t.sp.val, t.pc)) = some (0x402, 16, 0x500) := by decide
theorem test_cf6_call_full :
    (stepWord 0x2600 ({ startAt 0x500 with sp := 16 })).map (fun t => (t.fs, t.sp.val, t.pc)) = some (0x05000001, 16, 0x500) := by decide
theorem test_cf8_ret_keeps_entry :
    (stepWord 0x00EE ({ startAt 0x300 with sp := 2, stack := (State.reset.stack.set 0 0x222).set 1 0x456 })).map (fun t => (t.sp.val, t.pc, stackEntry t 1)) = some (1, 0x456, 0x456) := by decide
theorem test_cf9_ret_empty :
    (stepWord 0x00EE (startAt 0x300)).map (fun t => (t.fs, t.sp.val, t.pc)) = some (0x03000002, 0, 0x300) := by decide
theorem test_cf10_se_taken :
    (stepWord 0x3005 (withRegs [(0, 5)] (startAt 0x202))).map (fun t => t.pc) = some (0x206) := by decide
theorem test_cf12_se_wraps :
    (stepWord 0x3000 (startAt 0xFFC)).map (fun t => t.pc) = some (0x000) := by decide
theorem test_cf14_sne_taken :
    (stepWord 0x4311 (withRegs [(3, 0x10)] (startAt 0x300))).map (fun t => t.pc) = some (0x304) := by decide
theorem test_cf15_sne_not_taken :
    (stepWord 0x4311 (withRegs [(3, 0x11)] (startAt 0x300))).map (fun t => t.pc) = some (0x302) := by decide
theorem test_cf17_se_reg_n_ignored :
    (stepWord 0x5125 (withRegs [(1, 0x22), (2, 0x22)] (startAt 0x210))).map (fun t => t.pc) = some (0x214) := by decide
theorem test_cf18_se_reg_not_taken :
    (stepWord 0x5120 (withRegs [(1, 0x22), (2, 0x23)] (startAt 0x210))).map (fun t => t.pc) = some (0x212) := by decide
theorem test_cf20_sne_reg_same :
    (stepWord 0x9110 (withRegs [(1, 0x22)] (startAt 0x210))).map (fun t => t.pc) = some (0x212) := by decide
theorem test_cf21_sne_reg_n_ignored :
    (stepWord 0x912F (withRegs [(1, 0x22), (2, 0x23)] (startAt 0x210))).map (fun t => t.pc) = some (0x214) := by decide
theorem test_cf23_jp_v0_masked :
    (stepWord 0xBFFF (withRegs [(0, 0xFF)] State.reset)).map (fun t => t.pc) = some (0x0FE) := by decide
theorem test_cf25_jp_v0_never_v1 :
    (stepWord 0xB206 (withRegs [(1, 5)] (startAt 0x202))).map (fun t => t.pc) = some (0x206) := by decide
theorem test_al2_ld_vf :
    (stepWord 0x6F07 (State.reset)).map (fun t => (readV t VF, t.pc)) = some (0x07, 0x202) := by decide
theorem test_al3_add_imm_no_flag :
    (stepWord 0x7005 (withRegs [(0, 0xFE), (15, 0x55)] State.reset)).map (fun t => (readV t 0, readV t VF)) = some (0x03, 0x55) := by decide
theorem test_al5_add_imm_vf :
    (stepWord 0x7F01 (withRegs [(15, 0xFF)] State.reset)).map (fun t => readV t VF) = some (0x00) := by decide
theorem test_al6_ld_reg :
    (stepWord 0x8120 (withRegs [(2, 0x9C)] State.reset)).map (fun t => (readV t 1, readV t 2)) = some (0x9C, 0x9C) := by decide
theorem test_al7_or :
    (stepWord 0x8011 (withRegs [(0, 0xF0), (1, 0x0F)] State.reset)).map (fun t => readV t 0) = some (0xFF) := by decide
theorem test_al11_or_vf :
    (stepWord 0x8F11 (withRegs [(15, 0x01), (1, 0xFE)] State.reset)).map (fun t => readV t VF) = some (0xFF) := by decide
theorem test_al8_and :
    (stepWord 0x8012 (withRegs [(0, 0xF3), (1, 0x3F), (15, 0xFF)] State.reset)).map (fun t => (readV t 0, readV t VF)) = some (0x33, 0xFF) := by decide
theorem test_al9_xor :
    (stepWord 0x8013 (withRegs [(0, 0xFF), (1, 0x0F)] State.reset)).map (fun t => readV t 0) = some (0xF0) := by decide
theorem test_al10_xor_same :
    (stepWord 0x8003 (withRegs [(0, 0x5A)] State.reset)).map (fun t => readV t 0) = some (0x00) := by decide
theorem test_al13_add_carry :
    (stepWord 0x8014 (withRegs [(0, 0x80), (1, 0x80)] State.reset)).map (fun t => (readV t 0, readV t VF)) = some (0x00, 1) := by decide
theorem test_al18_add_vf :
    (stepWord 0x8F04 (withRegs [(15, 0xFF), (0, 2)] State.reset)).map (fun t => readV t VF) = some (1) := by decide
theorem test_al20_sub_equal :
    (stepWord 0x8015 (withRegs [(0, 5), (1, 5)] State.reset)).map (fun t => (readV t 0, readV t VF)) = some (0x00, 0) := by decide
theorem test_al22_sub_vf_operand :
    (stepWord 0x80F5 (withRegs [(0, 5), (15, 7)] State.reset)).map (fun t => (readV t 0, readV t VF)) = some (0xFE, 0) := by decide
theorem test_al27_shr_vf :
    (stepWord 0x8F06 (withRegs [(15, 3)] State.reset)).map (fun t => readV t VF) = some (1) := by decide
theorem test_al31_shr_y_unused :
    (stepWord 0x8126 (withRegs [(1, 4), (2, 0xFF)] State.reset)).map (fun t => (readV t 1, readV t 2, readV t VF)) = some (0x02, 0xFF, 0) := by decide
theorem test_al33_subn_borrow :
    (stepWord 0x8017 (withRegs [(0, 5), (1, 3)] State.reset)).map (fun t => (readV t 0, readV t VF)) = some (0xFE, 0) := by decide
theorem test_al37_subn_vf_operand :
    (stepWord 0x80F7 (withRegs [(0, 2), (15, 5)] State.reset)).map (fun t => (readV t 0, readV t VF)) = some (0x03, 1) := by decide
theorem test_al40_shl :
    (stepWord 0x800E (withRegs [(0, 0x7F)] State.reset)).map (fun t => (readV t 0, readV t VF)) = some (0xFE, 0) := by decide
theorem test_al42_shl_y_unused :
    (stepWord 0x834E (withRegs [(3, 1), (4, 0xFF)] State.reset)).map (fun t => (readV t 3, readV t 4, readV t VF)) = some (0x02, 0xFF, 0) := by decide
theorem test_al43_ld_i :
    (stepWord 0xAFFF (State.reset)).map (fun t => (t.i, t.pc)) = some (0xFFF, 0x202) := by decide
theorem test_al46_rnd_zero_draws :
    (stepWord 0xC000 (withRegs [(0, 9)] State.reset)).map (fun t => t.draws) = some 1 := by decide
-- AL-45: with kk = 0xFF the register holds the free byte of this draw, whatever it is
theorem test_al45_rnd_ff : (stepWord 0xC0FF State.reset).map (fun t => readV t 0) = some (Config.randByte 0) := by
  have h : (stepWord 0xC0FF State.reset).map (fun t => readV t 0) = some (Config.randByte 0 &&& 0xFF#8) := rfl
  rw [h, show (0xFF#8 : Byte) = BitVec.allOnes 8 from rfl, BitVec.and_allOnes]
-- P3, the first draw: two sprite rows at column 60 and row 31, wrapping across both edges
theorem test_p3_draw_wraps_both_edges :
    (stepWord 0xD012 (withSprite [0xFF, 0x81] (withRegs [(0, 60), (1, 31)] State.reset))).map (fun t =>
      ([t.screen.pixel 60 31, t.screen.pixel 3 31, t.screen.pixel 4 31, t.screen.pixel 60 0, t.screen.pixel 61 0,
        t.screen.pixel 3 0], readV t VF)) = some ([true, true, false, true, false, true], 0) := by decide
-- DR-13, with DR-11's VF as the column operand: x = F, VF = 0, pixel (0, 1) set; one flag for the whole sprite
theorem test_dr13_draw_collides :
    (stepWord 0xDF12 (withPixel 0 1 (withSprite [0xFF, 0xFF] State.reset))).map (fun t =>
      (t.screen.pixel 0 0, t.screen.pixel 0 1, t.screen.pixel 1 1, readV t VF)) = some (true, false, true, 1) := by decide
theorem test_dr14_cls_keeps_vf :
    (stepWord 0x00E0 (withPixel 63 31 (withRegs [(15, 1)] State.reset))).map (fun t => (t.screen.pixel 63 31, readV t VF)) = some (false, 1) := by decide
theorem test_dr16_sprite_range_fault :
    (stepWordWith ⟨.full12, .fault, .snapshot⟩ 0xD012 (writeI 0xFFF (startAt 0x300))).map (fun t => (t.fs, t.pc)) =
    some (0x03000003, 0x300) := by decide
theorem test_dr16_in_range_draws :
    (stepWordWith ⟨.full12, .fault, .snapshot⟩ 0xD011 (writeI 0xFFF (startAt 0x300))).map (fun t => (t.fs, t.pc)) =
    some (0, 0x302) := by decide

/-! ### Reset, the host and the faulted state -/

theorem test_ft1_faulted_step : step { State.reset with fs := 0x05000001 } = .fault .stackOverflow := by rfl
theorem test_ft2_faulted_step : step { State.reset with fs := 0x03000002 } = .fault .stackUnderflow := by rfl
theorem test_rs2_reset_clears_fs : (hostReset { State.reset with fs := 0x05000001 }).fs = 0 := by decide
theorem test_rs3_load :
    (loadProgram [0x60, 0x05, 0x30, 0x05] State.reset).map (fun t => t.mem) =
      some [(0x200, 0x60), (0x201, 0x05), (0x202, 0x30), (0x203, 0x05)] := by decide
theorem test_load_too_long : loadProgram (List.replicate 0xE01 0) State.reset = none := by
  rw [loadProgram, if_neg (by rw [List.length_replicate]; omega)]
theorem test_font_glyph_f : memRead State.reset 0x04B = 0xF0 ∧ memRead State.reset 0x04F = 0x80 ∧ memRead State.reset 0x050 = 0 := by
  decide
theorem test_default_font_is_reset : (resetWithFont ⟨font.toArray, rfl⟩).mem = [] := by decide
theorem test_store_reset_byte_unlists : (memWrite 0x300 0 (memWrite 0x300 7 State.reset)).mem = [] := by decide
theorem test_stores_stay_sorted :
    (memWrite 0x200 1 (memWrite 0x300 2 State.reset)).mem = [(0x200, 1), (0x300, 2)] := by decide
theorem test_refuse_vf_operand :
    execWith ⟨.full12, .wrap, .refuseVfOperand⟩ (.shr 1 15) State.reset = .refused .vfOperand := by rfl

/-! ### Witnesses: a concrete case that meets the hypotheses of each statement that has some -/

/-- An unfaulted state that meets the invariant, with an entry on the stack and a pc at the top of memory. -/
def sample : State := { startAt 0xFFF with sp := 1, stack := State.reset.stack.set 0 0xFFF, i := 0xFFF, mem := [(0x300, 0xFF)] }

/-- A call to 0x202 at 0x200 and a return at 0x202. -/
def callThenReturn : State := placeBytes 0x200 [0x22, 0x02, 0x00, 0xEE] State.reset

/-- The state after the call to 0x202 at 0x200. -/
def enter (s : State) : State := { s with pc := 0x202, sp := 1, stack := State.reset.stack.set 0 0x202 }

/-- The state after that call. -/
def afterCall : State := enter callThenReturn

/-- A call to 0x202 at 0x200, a load of 5 into V0 there, and a return at 0x204. -/
def callLoadReturn : State := placeBytes 0x200 [0x22, 0x02, 0x60, 0x05, 0x00, 0xEE] State.reset

theorem witness_sample_inv : sample.Inv := by
  refine ⟨by decide, by decide, by decide, ⟨by decide, by decide, by decide⟩, by decide⟩

theorem witness_full_inv : ({ sample with sp := 16 } : State).Inv := ⟨by decide, by decide, by decide, ⟨by decide, by decide, by decide⟩, by decide⟩

theorem witness_empty_inv : ({ sample with sp := 0 } : State).Inv := ⟨by decide, by decide, by decide, ⟨by decide, by decide, by decide⟩, by decide⟩

theorem witness_sample_unfaulted : sample.Unfaulted := by
  simp only [State.Unfaulted]; decide

-- DecodeOfEncodeIsIdentity
theorem witness_decode_of_encode : (Instr.nop0 0x0EF).wf = true ∧ (Instr.nopFx 15 0xFF).wf = true := by decide
-- LowByteKeyMatchesTrailingByte: both clauses, and both ends of the inner choice
theorem witness_low_byte_key : fieldG 0x1000 ≠ 0 ∧ fieldG 0x0FEE = 0 ∧ fieldG 0x0FE0 = 0 ∧ fieldG 0x0FFF = 0 := by decide
-- StepRunsDecodedInstruction: pc = 0xFFF, the word across the wrap
theorem witness_step_runs : sample.Unfaulted ∧ sample.pc.toNat < 0x1000 ∧
    (0x00F0 : Word).toNat = (memRead sample (BitVec.ofNat 12 sample.pc.toNat)).toNat * 256 +
      (memRead sample (BitVec.ofNat 12 ((sample.pc.toNat + 1) % 0x1000))).toNat := by
  refine ⟨witness_sample_unfaulted, by decide, by decide⟩
-- FaultedStateTakesNoStep
theorem witness_faulted : fsCause 0x05000001 ≠ 0 ∧ fsCause 0x03000003 ≠ 0 := by decide
-- PlacedWordRunsNext
theorem witness_placed : sample.Inv ∧ sample.Unfaulted := ⟨witness_sample_inv, witness_sample_unfaulted⟩
-- EveryUnfaultedStateSteps
theorem witness_unfaulted : State.reset.Unfaulted := by simp only [State.Unfaulted]; decide
-- VfOperandRefusedExactly: both clauses
theorem witness_vf_named : ∃ x y, (x = VF ∨ y = VF) ∧ (Instr.drw 15 0 4 = .subReg x y ∨ Instr.drw 15 0 4 = .shr x y ∨
    Instr.drw 15 0 4 = .subnReg x y ∨ Instr.drw 15 0 4 = .shl x y ∨ ∃ n, Instr.drw 15 0 4 = .drw x y n) :=
  ⟨15, 0, .inl rfl, .inr (.inr (.inr (.inr ⟨4, rfl⟩)))⟩
theorem witness_vf_not_named : ¬∃ x y, (x = VF ∨ y = VF) ∧ (Instr.addReg 15 15 = .subReg x y ∨ Instr.addReg 15 15 = .shr x y ∨
    Instr.addReg 15 15 = .subnReg x y ∨ Instr.addReg 15 15 = .shl x y ∨ ∃ n, Instr.addReg 15 15 = .drw x y n) := by
  simp
-- ResetLeavesTableValues: both memory clauses at their boundary
theorem witness_reset_memory : (0x04F : Addr).toNat < 0x50 ∧ 0x50 ≤ (0x050 : Addr).toNat := by decide
-- HostResetFromAnyState, StepNeverWritesMemory, StepKeepsInv: a step that answers a next state
theorem witness_step_next : sample.Inv ∧ step sample = .next (advance sample) := ⟨witness_sample_inv, rfl⟩
-- ResetWithFontHoldsFont
theorem witness_font_boundary : 0x50 ≤ (0x050 : Addr).toNat := by decide
-- ProgramLoadPlacesImage: the longest image, and an address on either side of a short one
theorem witness_load_longest : sample.mem.wf = true ∧ (List.replicate 0xE00 (0x12 : Byte)).length ≤ 0xE00 := by
  refine ⟨by decide, by rw [List.length_replicate]⟩
theorem witness_load_sides : (0x1FF : Addr).toNat < 0x200 ∧ 0x200 + [0x60#8, 0x05].length ≤ (0x202 : Addr).toNat := by decide
-- HostWriteIsReadBack
theorem witness_host_write : sample.mem.wf = true ∧ (0xFFF : Addr) ≠ 0x000 := by decide
-- EqualBytesMakeEqualMemory
theorem witness_equal_bytes : Memory.wf [(0x300, 0xFF)] = true ∧ Memory.wf (Memory.store [] 0x300 0xFF) = true ∧
    ∀ a : Addr, Memory.byteAt [(0x300, 0xFF)] a.toNat = (Memory.store [] 0x300 0xFF).byteAt a.toNat :=
  ⟨by decide, by decide, fun _ => rfl⟩
-- ReachableStatesMeetInv: a boot, a write outside the image, a load, a step, a reset and another write
theorem witness_reachable : Reachable (hostMemWrite 0x050 7 (hostReset
    (placeBytes 0x200 [0x12, 0x00] (hostMemWrite 0x100 9 State.reset)))) :=
  ⟨.loading, .write (.reset (.step (p := .loading) (.load (image := [0x12, 0x00])
    (.write (a := 0x100) (b := 9) .boot) rfl) rfl))⟩
-- RunOfStepCountEndsStoppedOrFaulted: a stopped run and a faulted one
theorem witness_run_ends : runFor 1 callThenReturn = .stopped afterCall ∧
    runFor 0 { State.reset with fs := 0x05000001 } = .faulted .stackOverflow { State.reset with fs := 0x05000001 } := ⟨rfl, rfl⟩
-- RunToWatchedAddressEndsThereFirst: reached after one step, faulted, not reached
theorem witness_run_to : runTo 0x202 1 callThenReturn = some (.stopped afterCall) ∧
    runTo 0x202 0 { State.reset with fs := 0x05000001 } = some (.faulted .stackOverflow { State.reset with fs := 0x05000001 }) ∧
    runTo 0x203 0 callThenReturn = none := ⟨rfl, rfl, rfl⟩
-- SelfJumpIsIdleLoop
theorem witness_idle : (placeBytes 0x200 [0x12, 0x00] State.reset).Unfaulted ∧
    decode (fetch (placeBytes 0x200 [0x12, 0x00] State.reset)) = .jp 0x200 ∧
    (placeBytes 0x200 [0x12, 0x00] State.reset).pc.toNat = (0x200 : Addr).toNat := ⟨rfl, by decide, rfl⟩
-- RegistersWrittenByTableOnly
theorem witness_writes : exec (.addReg 1 2) sample = .next (finishFlag 1 0 false sample) ∧ (0 : RegIdx) ∉ writesV (.addReg 1 2) :=
  ⟨rfl, by decide⟩
-- OnlyNamedRegistersAreRead: an overwritten register and an untouched one
theorem witness_reads : VF ∉ readsV (.addReg 1 2) ∧ VF ∈ writesV (.addReg 1 2) ∧ (0 : RegIdx) ∉ readsV (.addReg 1 2) ∧
    (0 : RegIdx) ∉ writesV (.addReg 1 2) := by decide
-- AddressRegisterWritersAndReaders: a write of I, an instruction that neither reads nor writes it, I at its bound
theorem witness_i : exec (.ldI 0x123) sample = .next (advance (writeI 0x123 sample)) ∧
    (advance (writeI 0x123 sample)).i ≠ sample.i ∧ sample.i.toNat ≤ 0xFFF := ⟨rfl, by decide, by decide⟩
theorem witness_i_untouched : (∀ x y n, Instr.cls ≠ .drw x y n) ∧ ∀ nnn, Instr.cls ≠ .ldI nnn := by simp
-- StackPointerMovesByCallAndReturn: a call at 16 and a return at 0
theorem witness_sp_ends : exec (.call 0x300) { sample with sp := 16 } =
      .next (raiseFault .stackOverflow { sample with sp := 16 }) ∧
    exec .ret { sample with sp := 0 } = .next (raiseFault .stackUnderflow { sample with sp := 0 }) := ⟨rfl, rfl⟩
-- StackEntriesWrittenByCallOnly
theorem witness_entry_changes : step callThenReturn = .next afterCall ∧ stackEntry afterCall 0 ≠ stackEntry callThenReturn 0 :=
  ⟨rfl, by decide⟩
-- ScreenWritersAndReaders: a pixel that changes, and an instruction that is neither CLS nor Dxyn
theorem witness_screen_changes : exec .cls (withPixel 3 4 sample) =
      .next (advance (writeScreen clearScreen (withPixel 3 4 sample))) ∧
    ∃ c r, (advance (writeScreen clearScreen (withPixel 3 4 sample))).screen.pixel c r ≠ (withPixel 3 4 sample).screen.pixel c r :=
  ⟨rfl, 3, 4, by decide⟩
theorem witness_screen_untouched : Instr.ret ≠ .cls ∧ ∀ x y n, Instr.ret ≠ .drw x y n := by simp
-- OnlyDrawReadsMemory
theorem witness_no_draw : ∀ x y n, Instr.seImm 1 2 ≠ .drw x y n := by simp
-- FaultStatusWrittenByStackFaultsOnly: both faults
theorem witness_fs_changes :
    ({ sample with sp := 16 } : State).Inv ∧ (raiseFault .stackOverflow { sample with sp := 16 }).fs ≠ sample.fs ∧
    ({ sample with sp := 0 } : State).Inv ∧ (raiseFault .stackUnderflow { sample with sp := 0 }).fs ≠ sample.fs :=
  ⟨witness_full_inv, by decide, witness_empty_inv, by decide⟩
-- RandomByteTakenByRndOnly: an instruction that draws and one that does not
theorem witness_draws : (∃ x kk, Instr.rnd 0 0 = .rnd x kk) ∧ ∀ x kk, Instr.ldImm 0 0 ≠ .rnd x kk := by simp
-- FlagIsZeroOrOneAfterFlagSetters
theorem witness_flag_setter : setsFlag (.shl 15 0) = true ∧ exec (.shl 15 0) sample = .next (finishFlag 15 0 false sample) :=
  ⟨rfl, rfl⟩
-- CallPushesReturnAddressOrFaults: SP just below the top, and at it
theorem witness_call : ({ sample with sp := 15 } : State).sp.val ≠ 16 ∧ ({ sample with sp := 16 } : State).sp.val = 16 ∧
    sample.pc.toNat < 0x1000 := by decide
-- ReturnPopsEntryOrFaults: one entry, and none
theorem witness_ret : sample.Inv ∧ sample.sp.val ≠ 0 ∧ ({ sample with sp := 0 } : State).Inv ∧
    ({ sample with sp := 0 } : State).sp.val = 0 := ⟨witness_sample_inv, by decide, witness_empty_inv, rfl⟩
-- CallReturnRoundTrip: the call, one step in the subroutine, and the return
theorem witness_round_trip : callLoadReturn.sp.val < 16 ∧ decode (fetch callLoadReturn) = .call 0x202 ∧
    step callLoadReturn = .next (enter callLoadReturn) ∧
    RunAbove (enter callLoadReturn).sp.val (enter callLoadReturn) (finishPlain 0 5 (enter callLoadReturn)) ∧
    decode (fetch (finishPlain 0 5 (enter callLoadReturn))) = .ret ∧
    step (finishPlain 0 5 (enter callLoadReturn)) = .next (writePc 0x202 (dropEntry (finishPlain 0 5 (enter callLoadReturn)))) :=
  ⟨by decide, by decide, rfl, .step (.refl (Nat.le_refl _)) rfl (Nat.le_refl _), by decide, rfl⟩
-- AddRegisterSetsCarry, SubRegisterSetsNoBorrow, ShiftRightSetsLowBit, SubnRegisterSetsNoBorrow, ShiftLeftSetsHighBit
theorem witness_dest_not_vf : (14 : RegIdx) ≠ VF := by decide
-- NoOpWordsOnlyAdvance: every clause at a boundary
theorem witness_no_op_words : fieldG 0xE000 = 0xE ∧ fieldG 0xFFFF = 0xF ∧
    (fieldG 0x00EF = 0x0 ∧ (0x00EF : Word) ≠ 0x00E0 ∧ (0x00EF : Word) ≠ 0x00EE) ∧
    (fieldG 0x8008 = 0x8 ∧ 8 ≤ (fieldN 0x8008).toNat ∧ fieldN 0x8008 ≠ 0xE) ∧
    (fieldG 0x800F = 0x8 ∧ 8 ≤ (fieldN 0x800F).toNat ∧ fieldN 0x800F ≠ 0xE) := by decide
-- DrawXorsSpriteAndSetsCollision: a visited and an unvisited pixel, and the range clauses at their boundary (sample has I = 0xFFF)
theorem witness_draw_pixels : (0 : Nat) < (1#4).toNat ∧ (7 : Nat) < 8 ∧
    ∀ r < (1#4).toNat, ∀ b < 8, ¬(toColumn (0 + b) = 8 ∧ toRow (0 + r) = 0) := by decide
theorem witness_draw_collides : memRead { sample with i := 0x300 } (toAddr 0x300) = 0xFF ∧
    (withPixel 0 0 sample).screen.pixel 0 0 = true := by decide
theorem witness_draw_ranges : sample.i.toNat + (1#4).toNat ≤ 0x1000 ∧ 1 ≤ (2#4).toNat ∧
    sample.i.toNat + (2#4).toNat > 0x1000 ∧ sample.pc.toNat < 0x1000 := by decide
-- DrawTwiceRestoresScreen: two draws in a row that both answer a next state
theorem witness_draw_twice : (0 : RegIdx) ≠ VF ∧ ∃ t u, exec (.drw 0 1 1) sample = .next t ∧ exec (.drw 0 1 1) t = .next u :=
  ⟨by decide, _, _, execDrw_eq 0 1 1 sample, execDrw_eq 0 1 1 _⟩
-- DrawWrapsAtEdges
theorem witness_draw_wraps : readV (withRegs [(0, 60), (1, 30)] sample) 0 = 60 ∧
    readV (withRegs [(0, 60), (1, 30)] sample) 1 = 30 ∧ ∃ t, exec (.drw 0 1 4) (withRegs [(0, 60), (1, 30)] sample) = .next t :=
  ⟨by decide, by decide, _, execDrw_eq 0 1 4 _⟩

end Sys2Proof.Tests
end

section
/-! PROOFS of the statements about the block's own state (spec file 10_state.md): what reset leaves, which registers an
instruction may write, and how SP moves. The last two are read off the shapes of an effect. -/

namespace Sys2Proof.Machine

/-! ### Reset (R43) -/

@[simp] theorem font_length : font.length = 80 := rfl

/-- Inside FONT's range an unlisted address reads as its font byte. -/
theorem some_unlistedByte_eq_getElem? {a : Nat} (h : a < 80) : some (unlistedByte a) = font[a]? := by
  rw [unlistedByte, List.getD_eq_getElem _ _ (by simpa using h), List.getElem?_eq_getElem]

/-- Above FONT's range an unlisted address reads as 0. -/
theorem unlistedByte_eq_zero {a : Nat} (h : 80 ≤ a) : unlistedByte a = 0 :=
  List.getD_eq_default _ _ (by simpa using h)

/-- After reset every address reads as unlisted. -/
@[simp] theorem memRead_reset (a : Addr) : memRead State.reset a = unlistedByte a.toNat := memRead_of_mem_nil rfl a

/-- After reset every register is 0. -/
@[simp] theorem readV_reset (r : RegIdx) : readV State.reset r = 0 := by
  simp [readV, State.reset]

/-- After reset every stack entry is 0. -/
@[simp] theorem stackEntry_reset (k : Fin 16) : stackEntry State.reset k = 0 := by
  simp [stackEntry, State.reset]

/-- Settles O13: the registers and the stack are replicated zeros, the screen is the clear one, and memory lists nothing. -/
theorem resetLeavesTableValues : Obligations.ResetLeavesTableValues :=
  ⟨readV_reset, rfl, rfl, rfl, stackEntry_reset, clearScreen_pixel, rfl, font_length,
    fun a ha => (congrArg some (memRead_reset a)).trans (some_unlistedByte_eq_getElem? ha),
    fun a ha => (memRead_reset a).trans (unlistedByte_eq_zero ha)⟩

/-! ### The register file (R23) -/

/-- An effect keeps every register that the table does not list for its instruction. -/
theorem Effect.readV_eq {i : Instr} {s t : State} (he : Effect i s t) {r : RegIdx} (hr : r ∉ writesV i) :
    readV t r = readV s r := by
  cases he with
  | plain _ _ x b _ hx => exact (finishPlain_keeps x b s).regs r (hx ▸ hr)
  | random x kk => exact (finishPlain_keeps x _ (takeRand s)).regs r hr
  | flagged _ _ x b f _ hx => exact (finishFlag_keeps x b f s).regs r (hx ▸ hr)
  | drawn x y n _ scr col =>
    have hvf : VF ≠ r := fun h => hr (by simp [writesV, h])
    simp [readV_writeV_of_ne hvf]
  | moved | address | pushed | popped | overflowed | underflowed | cleared => rfl

/-- Settles O23: every effect keeps the registers outside its instruction's table entry. -/
theorem registersWrittenByTableOnly : Obligations.RegistersWrittenByTableOnly :=
  fun _ _ _ h _ hr => (effect_of_exec h).readV_eq hr

/-! ### The stack pointer (R28) -/

/-- An effect leaves SP, or is a call's push, or is a return's pop. -/
theorem Effect.sp_cases {i : Instr} {s t : State} (he : Effect i s t) :
    t.sp = s.sp ∨ (t.sp.val = s.sp.val + 1 ∧ ∃ nnn, i = .call nnn) ∨ (t.sp.val + 1 = s.sp.val ∧ i = .ret) := by
  cases he with
  | pushed nnn _ h => exact .inr (.inl ⟨rfl, nnn, rfl⟩)
  | popped _ h => exact .inr (.inr ⟨Nat.sub_add_cancel h, rfl⟩)
  | moved | plain | random | flagged | address | overflowed | underflowed | cleared | drawn => exact .inl rfl

/-- A raised fault leaves SP and records its CAUSE. -/
theorem sp_fsCause_raiseFault (f : Fault) (s : State) :
    (raiseFault f s).sp = s.sp ∧ fsCause (raiseFault f s).fs = causeCode f :=
  ⟨rfl, fsCause_fsWord _ _⟩

/-- Settles O26: SP moves by a push or a pop alone, and a call at 16 and a return at 0 raise their fault instead. -/
theorem stackPointerMovesByCallAndReturn : Obligations.StackPointerMovesByCallAndReturn := by
  refine ⟨rfl, fun i s t h => ⟨Nat.le_of_lt_succ t.sp.isLt, (effect_of_exec h).sp_cases, ?_, ?_⟩⟩
  · rintro ⟨nnn, rfl⟩ hfull
    rw [exec_call_of_full nnn (by omega)] at h
    cases h
    exact sp_fsCause_raiseFault .stackOverflow s
  · rintro rfl hempty
    rw [exec_ret_of_empty (by omega)] at h
    cases h
    exact sp_fsCause_raiseFault .stackUnderflow s

end Sys2Proof.Machine
end

section
/-! PROOFS of the statements about memory (spec file 20_memory.md): no step writes it, and the word a step fetches from it is
the big-endian one at pc, its second address wrapping. -/

namespace Sys2Proof.Machine

/-! ### No instruction stores (R64) -/

/-- No shape of an effect touches memory. -/
theorem Effect.mem_eq {i : Instr} {s t : State} (he : Effect i s t) : t.mem = s.mem := by
  cases he with
  | moved | plain | random | flagged | address | pushed | popped | overflowed | underflowed | cleared | drawn => rfl

/-- Settles O22: a step that answers a next state is an effect of the decoded instruction, and every effect keeps memory. -/
theorem stepNeverWritesMemory : Obligations.StepNeverWritesMemory := by
  intro s t h
  obtain ⟨-, hexec⟩ := (step_eq_next_iff s t).mp h
  exact memRead_congr (effect_of_exec hexec).mem_eq

/-! ### The fetched word (R62, R111) -/

/-- An address is a number taken modulo 0x1000 (R61). -/
@[simp] theorem toAddr_mod (n : Nat) : toAddr (n % 0x1000) = toAddr n :=
  BitVec.eq_of_toNat_eq (by simp [toAddr])

/-- The number that the fetched word stands for. -/
theorem toNat_fetch (s : State) : (fetch s).toNat =
    256 * (memRead s (toAddr s.pc.toNat)).toNat + (memRead s (toAddr (s.pc.toNat + 1))).toNat :=
  toNat_joinBytes _ _

/-- A word equal to the big-endian number at pc is the fetched one. -/
theorem eq_fetch_of_toNat {s : State} {w : Word} (hw : w.toNat = (memRead s (toAddr s.pc.toNat)).toNat * 256 +
    (memRead s (toAddr ((s.pc.toNat + 1) % 0x1000))).toNat) : w = fetch s := by
  apply BitVec.eq_of_toNat_eq
  rw [hw, toNat_fetch, toAddr_mod, Nat.mul_comm]

/-- Settles O7: the word at pc is the fetched one, and an unfaulted step runs the handler of what it decodes to. The bound on
pc is not needed: the model reduces the first address as well (log entry 4). -/
theorem stepRunsDecodedInstruction : Obligations.StepRunsDecodedInstruction := by
  intro s w hu _ hw
  rw [eq_fetch_of_toNat hw]
  exact step_of_unfaulted hu

end Sys2Proof.Machine
end

section
/-! PROOFS of the statements about the encoding (spec file 30_encoding.md): the source's two example words. -/

namespace Sys2Proof

/-! ### Words and bytes of format FK (R81, R85) -/

/-- Group 3 has no sub-key: the group alone makes the word a skip-eq-imm of its x and kk. -/
theorem decodeWith_group3 (key : Group0Key) {w : Word} (h : fieldG w = 3) :
    decodeWith key w = .seImm (fieldX w) (fieldKk w) := by
  simp [decodeWith, h]

/-- Group 6 has no sub-key: the group alone makes the word a load-imm of its x and kk. -/
theorem decodeWith_group6 (key : Group0Key) {w : Word} (h : fieldG w = 6) :
    decodeWith key w = .ldImm (fieldX w) (fieldKk w) := by
  simp [decodeWith, h]

/-- The two bytes of a word decode as the word does. -/
@[simp] theorem decodeBytes_high_low (w : Word) (rest : List Byte) :
    decodeBytes (highByte w :: lowByte w :: rest) = .ok (decode w, rest) := by
  rw [decodeBytes, joinBytes_high_low]

theorem decode_wordOfByte_group3 (x : RegIdx) (kk : Byte) : decode (wordOfByte 0x3 x kk) = .seImm x kk := by
  rw [decode, decodeWith_group3 _ (fieldG_wordOfByte ..), fieldX_wordOfByte, fieldKk_wordOfByte]

theorem decode_wordOfByte_group6 (x : RegIdx) (kk : Byte) : decode (wordOfByte 0x6 x kk) = .ldImm x kk := by
  rw [decode, decodeWith_group6 _ (fieldG_wordOfByte ..), fieldX_wordOfByte, fieldKk_wordOfByte]

/-! ### The source's two example words (R82) -/

/-- Settles O4: each example word is a word of a group, a register and a byte, so its fields and its instruction are those of
every such word, and the two example bytes are the word's high and low byte. -/
theorem sourceExampleWordsDecode : Obligations.SourceExampleWordsDecode := by
  have hword6 : (0x6005 : Word) = wordOfByte 0x6 0 0x05 := by decide
  have hword3 : (0x3005 : Word) = wordOfByte 0x3 0 0x05 := by decide
  have hdec6 : decode 0x6005 = .ldImm 0 0x05 := hword6 ▸ decode_wordOfByte_group6 0 0x05
  have hdec3 : decode 0x3005 = .seImm 0 0x05 := hword3 ▸ decode_wordOfByte_group3 0 0x05
  refine ⟨?_, ?_, hdec6 ▸ decodeBytes_high_low 0x6005 [], hdec3 ▸ decodeBytes_high_low 0x3005 []⟩
  · rw [hdec6, hword6]
    exact ⟨fieldG_wordOfByte .., fieldX_wordOfByte .., fieldKk_wordOfByte .., rfl⟩
  · rw [hdec3, hword3]
    exact ⟨fieldG_wordOfByte .., fieldX_wordOfByte .., fieldKk_wordOfByte .., rfl⟩

end Sys2Proof
end

section
/-! PROOFS of the statements about dispatch (spec file 40_fetch_dispatch.md): the fault outcome of a faulted state, and the
rows and words that take the no-op default. -/

namespace Sys2Proof.Machine

/-! ### The faulted state (R120) -/

/-- The pending fault is the one whose code FS.CAUSE holds (R38). -/
theorem pendingFault_eq_some_iff (s : State) (f : Fault) : pendingFault s = some f ↔ causeCode f = fsCause s.fs := by
  have key : ∀ c : BitVec 2, faultOfCause c = some f ↔ causeCode f = c := by cases f <;> decide
  exact key _

/-- Settles O8: a CAUSE other than 0 leaves a fault pending, and the step answers that fault. -/
theorem faultedStateTakesNoStep : Obligations.FaultedStateTakesNoStep := by
  intro s hcause
  cases h : pendingFault s with
  | none => exact absurd ((pendingFault_eq_none_iff s).mp h) hcause
  | some f => exact ⟨f, step_of_pending h, (pendingFault_eq_some_iff s f).mp h⟩

/-! ### The rows of the no-op default (R117) -/

/-- An instruction whose handler is the no-op default only advances. -/
theorem onlyAdvances_of_exec_eq_nopDefault {i : Instr} {s : State} (h : exec i s = .next (nopDefault s)) :
    ∃ t, exec i s = .next t ∧ OnlyAdvances s t :=
  ⟨nopDefault s, h, nopDefault_onlyAdvances s⟩

/-- Settles O51: the arm of each of the 21 rows is the no-op default. -/
theorem noOpRowsOnlyAdvance : Obligations.NoOpRowsOnlyAdvance := by
  intro x y kk nnn s
  and_intros <;> exact onlyAdvances_of_exec_eq_nopDefault rfl

/-! ### The words of the no-op default (R118, R119) -/

/-- A word of group 0 that is neither CLS nor RET is of the catch-all row: with g = 0 its nnn is the whole word. -/
theorem decode_group0_of_ne {w : Word} (hg : fieldG w = 0) (hcls : w ≠ 0x00E0) (hret : w ≠ 0x00EE) :
    decode w = .nop0 (fieldNnn w) := by
  have hword : wordOfAddr 0 (fieldNnn w) = w := hg ▸ wordOfAddr_fields w
  have hcls' : fieldNnn w ≠ 0x0E0#12 := fun h => hcls (by rw [← hword, h]; rfl)
  have hret' : fieldNnn w ≠ 0x0EE#12 := fun h => hret (by rw [← hword, h]; rfl)
  rw [decode, decodeWith_group0 _ hg]
  exact (if_neg hcls').trans (if_neg hret')

/-- Group 8 with a sub-key from 8 up, that of 8xyE left out, is a no-op row. -/
theorem exec_decodeGroup8_eq_nopDefault {w : Word} (hn : 8 ≤ (fieldN w).toNat) (hshl : fieldN w ≠ 0xE) (s : State) :
    exec (decodeGroup8 w) s = .next (nopDefault s) := by
  have hlt := (fieldN w).isLt
  have hne : (fieldN w).toNat ≠ 14 := fun h => hshl (BitVec.eq_of_toNat_eq h)
  have hkey : (fieldN w).toNat = 8 ∨ (fieldN w).toNat = 9 ∨ (fieldN w).toNat = 10 ∨ (fieldN w).toNat = 11 ∨
      (fieldN w).toNat = 12 ∨ (fieldN w).toNat = 13 ∨ (fieldN w).toNat = 15 := by omega
  rcases hkey with h | h | h | h | h | h | h <;> simp only [decodeGroup8, h] <;> rfl

/-- Every row of group E is a no-op row (R118). -/
theorem exec_decodeGroupE_eq_nopDefault (w : Word) (s : State) : exec (decodeGroupE w) s = .next (nopDefault s) := by
  unfold decodeGroupE
  split_ifs <;> rfl

/-- Every row of group F is a no-op row (R118, R119). -/
theorem exec_decodeGroupF_eq_nopDefault (w : Word) (s : State) : exec (decodeGroupF w) s = .next (nopDefault s) := by
  unfold decodeGroupF
  split_ifs <;> rfl

/-- Settles O52: in each of the four classes the word decodes to a no-op row. -/
theorem noOpWordsOnlyAdvance : Obligations.NoOpWordsOnlyAdvance := by
  intro w s hw
  apply onlyAdvances_of_exec_eq_nopDefault
  obtain hE | hF | ⟨h0, hcls, hret⟩ | ⟨h8, hn, hshl⟩ := hw
  · rw [decode, decodeWith_groupE _ hE]
    exact exec_decodeGroupE_eq_nopDefault w s
  · rw [decode, decodeWith_groupF _ hF]
    exact exec_decodeGroupF_eq_nopDefault w s
  · rw [decode_group0_of_ne h0 hcls hret]
    rfl
  · rw [decode, decodeWith_group8 _ h8]
    exact exec_decodeGroup8_eq_nopDefault hn hshl s

end Sys2Proof.Machine
end

section
/-! PROOFS of the statements about control flow (spec file 41_control_flow.md): where a jump, a skip, a call and a return leave
pc, and that each keeps the rest but the stack or FS. -/

namespace Sys2Proof.Machine

/-! ### Jumps (R131, R138) -/

/-- An address operand is written to pc as it is: its 12 bits pass the mask of R24. -/
theorem toNat_writePc_addrOperand (nnn : Addr) (s : State) :
    (writePc (addrOperand nnn).toNat s).pc.toNat = nnn.toNat := by
  rw [toNat_writePc, toNat_addrOperand, Nat.mod_eq_of_lt nnn.isLt]

/-- Settles O33: the operand, a 12-bit address, is what pc is written with, and writing pc keeps the rest. -/
theorem jumpSetsPc : Obligations.JumpSetsPc := fun nnn s =>
  ⟨writePc (addrOperand nnn).toNat s, rfl, toNat_writePc_addrOperand nnn s, writePc_keeps _ s⟩

/-- The offset of Bnnn is V0. -/
theorem offsetOperand_eq (s : State) : offsetOperand s = readV s 0 := rfl

/-- Settles O38: pc is written with the sum of the two operands, and writing pc keeps the rest. -/
theorem jumpOffsetAddsV0 : Obligations.JumpOffsetAddsV0 := by
  intro nnn s
  refine ⟨writePc ((offsetOperand s).toNat + (addrOperand nnn).toNat) s, rfl, ?_, writePc_keeps _ s⟩
  rw [toNat_writePc, offsetOperand_eq, toNat_addrOperand]

/-! ### Skips (R133 to R137) -/

/-- A handler that skips on the test `c` of the condition `p` moves pc on by 4 or 2, as `p` holds or not, and keeps the rest. -/
theorem skips_of_exec_eq_skipIf {i : Instr} {s : State} {c : Bool} {p : Prop} [Decidable p] (hc : c = true ↔ p)
    (h : exec i s = .next (skipIf c s)) :
    ∃ t, exec i s = .next t ∧ PcMoved (if p then 4 else 2) s t ∧ KeepsAllBut [] s t := by
  refine ⟨skipIf c s, h, ?_, skipIf_keeps c s⟩
  rw [← if_congr hc rfl rfl]
  exact skipIf_pcMoved c s

/-- Settles O36: the two handlers skip on the equality test and on its negation. -/
theorem skipOnImmediate : Obligations.SkipOnImmediate := fun _ _ _ =>
  ⟨skips_of_exec_eq_skipIf beq_iff_eq rfl, skips_of_exec_eq_skipIf bne_iff_ne rfl⟩

/-- Settles O37: the two handlers skip on the equality test and on its negation, and neither looks at n. -/
theorem skipOnRegisters : Obligations.SkipOnRegisters := fun _ _ _ _ =>
  ⟨skips_of_exec_eq_skipIf beq_iff_eq rfl, skips_of_exec_eq_skipIf bne_iff_ne rfl⟩

/-! ### Raising a fault (R202) -/

/-- A handler that raises a fault writes FS with the fault's CAUSE and the instruction's own pc, and keeps the rest. -/
theorem faults_of_exec_eq_raiseFault {i : Instr} {s : State} {f : Fault} (hpc : s.pc.toNat < 0x1000)
    (h : exec i s = .next (raiseFault f s)) :
    ∃ t, exec i s = .next t ∧ fsCause t.fs = causeCode f ∧ (fsFpc t.fs).toNat = s.pc.toNat ∧
      t.fs &&& 0xF000FFFC#32 = 0 ∧ t.pc = s.pc ∧ KeepsAllBut [] s { t with fs := s.fs } := by
  have hfpc : (fsFpc (raiseFault f s).fs).toNat = s.pc.toNat := by
    rw [raiseFault_fs, fsFpc_fsWord, toAddr, BitVec.toNat_ofNat]
    exact Nat.mod_eq_of_lt hpc
  exact ⟨raiseFault f s, h, fsCause_fsWord _ _, hfpc, fsWord_unused _ _, rfl,
    ⟨fun _ _ => rfl, rfl, rfl, fun _ => rfl, fun _ _ => rfl, rfl, fun _ => rfl, rfl⟩⟩

/-! ### Call and return (R130, R132) -/

/-- Settles O34: a call that finds room writes the return address to the entry at SP alone, and one that finds none raises
StackOverflow. -/
theorem callPushesReturnAddressOrFaults : Obligations.CallPushesReturnAddressOrFaults := by
  refine ⟨fun nnn s hsp => ?_, fun nnn s hsp hpc =>
    faults_of_exec_eq_raiseFault hpc (exec_call_of_full nnn (by omega))⟩
  have hroom : s.sp.val < 16 := by omega
  refine ⟨_, exec_call_of_room nnn hroom, toNat_writePc_addrOperand nnn _, rfl, fun k hk => ?_, fun k hk => ?_,
    writePc_keeps _ s⟩
  · rw [stackEntry_writePc, stackEntry_pushEntry, if_pos hk.symm, toNat_returnAddress]
  · rw [stackEntry_writePc, stackEntry_pushEntry, if_neg hk.symm]

/-- A word below 0x1000 is written to pc as it is: the mask of R24 does not change it. -/
theorem writePc_pc_of_lt {w : Word} (hw : w.toNat < 0x1000) (s : State) : (writePc w.toNat s).pc = w :=
  BitVec.eq_of_toNat_eq ((toNat_writePc _ s).trans (Nat.mod_eq_of_lt hw))

/-- The entry a return pops is the one just below SP. -/
theorem topEntry_eq_stackEntry {s : State} (h : 0 < s.sp.val) {k : Fin 16} (hk : k.val + 1 = s.sp.val) :
    topEntry s h = stackEntry s k := by
  simp only [topEntry, stackEntry, ← hk, Nat.add_sub_cancel]

/-- Settles O35: a return that finds an entry moves it to pc, unmasked since the invariant bounds it, and one that finds none
raises StackUnderflow. -/
theorem returnPopsEntryOrFaults : Obligations.ReturnPopsEntryOrFaults := by
  refine ⟨fun s hinv hsp => ?_, fun s hinv hsp =>
    faults_of_exec_eq_raiseFault hinv.pc_lt (exec_ret_of_empty (by omega))⟩
  have hentry : 0 < s.sp.val := Nat.pos_of_ne_zero hsp
  refine ⟨_, exec_ret_of_entry hentry, Nat.sub_add_cancel hentry, fun k hk => ?_, writePc_keeps _ s⟩
  rw [topEntry_eq_stackEntry hentry hk]
  exact writePc_pc_of_lt (hinv.stack_lt k) _

end Sys2Proof.Machine
end

section
/-! PROOFS of the statements about the ALU (spec file 42_alu.md): the result in the destination, the flag in VF, and that each
instruction keeps the rest. -/

namespace Sys2Proof.Machine

/-! ### Handlers that set no flag (R151 to R156) -/

/-- A handler that ends in `finishPlain` leaves its result in the destination, moves pc on by 2 and keeps the rest. -/
theorem result_of_exec_eq_finishPlain {i : Instr} {x : RegIdx} {r : Byte} {s : State}
    (h : exec i s = .next (finishPlain x r s)) :
    ∃ t, exec i s = .next t ∧ readV t x = r ∧ PcMoved 2 s t ∧ KeepsAllBut [x] s t :=
  ⟨finishPlain x r s, h, readV_finishPlain_same x r s, finishPlain_pcMoved x r s, finishPlain_keeps x r s⟩

/-- Settles O40: the result is kk. -/
theorem loadImmediate : Obligations.LoadImmediate := fun _ _ _ => result_of_exec_eq_finishPlain rfl

/-- Settles O41: the result is the byte sum, whose number is the sum modulo 256. -/
theorem addImmediateWraps : Obligations.AddImmediateWraps := by
  intro x kk s
  obtain ⟨t, hexec, hx, hpc, hkeeps⟩ :=
    result_of_exec_eq_finishPlain (i := .addImm x kk) (r := addByte (readV s x) kk) rfl
  exact ⟨t, hexec, hx ▸ toNat_addByte _ _, hpc, hkeeps⟩

/-- Settles O42: the result is V[y]. -/
theorem loadRegister : Obligations.LoadRegister := fun _ _ _ => result_of_exec_eq_finishPlain rfl

/-- Settles O43: the results are the bitwise OR, AND and XOR of the two operands sampled before the step. -/
theorem logicCombinesBits : Obligations.LogicCombinesBits := fun _ _ _ =>
  ⟨result_of_exec_eq_finishPlain rfl, result_of_exec_eq_finishPlain rfl, result_of_exec_eq_finishPlain rfl⟩

/-! ### Results and flags as numbers (R157, R160 to R164) -/

/-- Over the integers a byte difference is the difference modulo 256: the 256 that `subByte` adds falls away. -/
theorem toNat_subByte_int (a b : Byte) : ((subByte a b).toNat : Int) = ((a.toNat : Int) - b.toNat) % 256 := by
  have hb := b.isLt
  rw [toNat_subByte]
  omega

theorem toNat_ushiftRight_one (a : Byte) : (a >>> 1).toNat = a.toNat / 2 := by
  rw [BitVec.toNat_ushiftRight, Nat.shiftRight_one]

theorem toNat_shiftLeft_one (a : Byte) : (a <<< 1).toNat = a.toNat * 2 % 256 := by
  rw [BitVec.toNat_shiftLeft, Nat.shiftLeft_eq, Nat.pow_one]

theorem toNat_boolByte_carryFlag (a b : Byte) :
    (boolByte (carryFlag a b)).toNat = if a.toNat + b.toNat > 255 then 1 else 0 := by
  rw [toNat_boolByte, carryFlag]
  exact if_congr decide_eq_true_iff rfl rfl

theorem toNat_boolByte_noBorrowFlag (a b : Byte) :
    (boolByte (noBorrowFlag a b)).toNat = if a.toNat > b.toNat then 1 else 0 := by
  rw [toNat_boolByte, noBorrowFlag]
  exact if_congr decide_eq_true_iff rfl rfl

theorem toNat_boolByte_eq_toNat (c : Bool) : (boolByte c).toNat = c.toNat := by cases c <;> rfl

/-- A flag read from bit k of a byte is, as a number, that bit. -/
theorem toNat_boolByte_getLsbD (a : Byte) (k : Nat) : (boolByte (a.getLsbD k)).toNat = a.toNat / 2 ^ k % 2 :=
  (toNat_boolByte_eq_toNat _).trans (Nat.toNat_testBit a.toNat k)

theorem toNat_boolByte_lowBitFlag (a : Byte) : (boolByte (lowBitFlag a)).toNat = a.toNat % 2 := by
  rw [lowBitFlag, toNat_boolByte_getLsbD, Nat.pow_zero, Nat.div_one]

theorem toNat_boolByte_highBitFlag (a : Byte) : (boolByte (highBitFlag a)).toNat = a.toNat / 128 := by
  have ha := a.isLt
  rw [highBitFlag, toNat_boolByte_getLsbD]
  omega

/-! ### Handlers that set the flag (R160 to R164) -/

/-- A handler that ends in `finishFlag` leaves its result in a destination other than VF and its flag in VF, moves pc on by 2
and keeps the rest. -/
theorem result_flag_of_exec_eq_finishFlag {i : Instr} {x : RegIdx} {r : Byte} {f : Bool} {s : State}
    (h : exec i s = .next (finishFlag x r f s)) :
    ∃ t, exec i s = .next t ∧ (x ≠ VF → readV t x = r) ∧ readV t VF = boolByte f ∧
      PcMoved 2 s t ∧ KeepsAllBut [x, VF] s t :=
  ⟨finishFlag x r f s, h, fun hx => readV_finishFlag_dest hx r f s, readV_finishFlag_vf x r f s,
    finishFlag_pcMoved x r f s, finishFlag_keeps x r f s⟩

/-- Settles O44: the result is the byte sum and the flag its carry. -/
theorem addRegisterSetsCarry : Obligations.AddRegisterSetsCarry := by
  intro x y s
  obtain ⟨t, hexec, hx, hvf, hrest⟩ := result_flag_of_exec_eq_finishFlag (i := .addReg x y)
    (r := addByte (readV s x) (readV s y)) (f := carryFlag (readV s x) (readV s y)) rfl
  exact ⟨t, hexec, fun hne => hx hne ▸ toNat_addByte _ _, hvf ▸ toNat_boolByte_carryFlag _ _, hrest⟩

/-- Settles O45: the result is the byte difference a - b and the flag its strict no-borrow flag. -/
theorem subRegisterSetsNoBorrow : Obligations.SubRegisterSetsNoBorrow := by
  intro x y s
  obtain ⟨t, hexec, hx, hvf, hrest⟩ := result_flag_of_exec_eq_finishFlag (i := .subReg x y)
    (r := subByte (readV s x) (readV s y)) (f := noBorrowFlag (readV s x) (readV s y)) rfl
  exact ⟨t, hexec, fun hne => hx hne ▸ toNat_subByte_int _ _, hvf ▸ toNat_boolByte_noBorrowFlag _ _, hrest⟩

/-- Settles O46: the result is V[x] shifted right and the flag the bit 0 that the shift moves out. -/
theorem shiftRightSetsLowBit : Obligations.ShiftRightSetsLowBit := by
  intro x y s
  obtain ⟨t, hexec, hx, hvf, hrest⟩ := result_flag_of_exec_eq_finishFlag (i := .shr x y)
    (r := readV s x >>> 1) (f := lowBitFlag (readV s x)) rfl
  exact ⟨t, hexec, fun hne => hx hne ▸ toNat_ushiftRight_one _, hvf ▸ toNat_boolByte_lowBitFlag _, hrest⟩

/-- Settles O47: the result is the byte difference b - a and the flag its strict no-borrow flag. -/
theorem subnRegisterSetsNoBorrow : Obligations.SubnRegisterSetsNoBorrow := by
  intro x y s
  obtain ⟨t, hexec, hx, hvf, hrest⟩ := result_flag_of_exec_eq_finishFlag (i := .subnReg x y)
    (r := subByte (readV s y) (readV s x)) (f := noBorrowFlag (readV s y) (readV s x)) rfl
  exact ⟨t, hexec, fun hne => hx hne ▸ toNat_subByte_int _ _, hvf ▸ toNat_boolByte_noBorrowFlag _ _, hrest⟩

/-- Settles O48: the result is V[x] shifted left and the flag the bit 7 that the shift moves out. -/
theorem shiftLeftSetsHighBit : Obligations.ShiftLeftSetsHighBit := by
  intro x y s
  obtain ⟨t, hexec, hx, hvf, hrest⟩ := result_flag_of_exec_eq_finishFlag (i := .shl x y)
    (r := readV s x <<< 1) (f := highBitFlag (readV s x)) rfl
  exact ⟨t, hexec, fun hne => hx hne ▸ toNat_shiftLeft_one _, hvf ▸ toNat_boolByte_highBitFlag _, hrest⟩

/-! ### The address register (R165) -/

/-- Settles O49: I takes the zero-extended operand, and with I put back the step is a write of pc alone. -/
theorem loadAddressSetsI : Obligations.LoadAddressSetsI := fun nnn s =>
  ⟨advance (writeI (addrOperand nnn) s), rfl, toNat_addrOperand nnn, advance_pcMoved (writeI (addrOperand nnn) s),
    writePc_keeps (s.pc.toNat + 2) s⟩

end Sys2Proof.Machine
end

section
/-! PROOFS of the statements about the display (spec file 43_display.md): the clear screen, and the whole effect of a draw,
under this hardware's sprite address policy and under the other one. -/

namespace Sys2Proof.Machine

/-! ### Clearing the screen (R181) -/

/-- Settles O53: the screen written is the clear one, and with the old screen put back the step is a write of pc alone. -/
theorem clearScreenClears : Obligations.ClearScreenClears := fun s =>
  ⟨advance (writeScreen clearScreen s), rfl, clearScreen_pixel, advance_pcMoved (writeScreen clearScreen s),
    writePc_keeps (s.pc.toNat + 2) s⟩

/-! ### The sprite loop, by the bits of its bytes from the most significant on (R182) -/

/-- Bit `b` of a byte from the most significant on is bit 7 - b from the least significant on. -/
theorem getLsbD_seven_sub (a : Byte) {b : Nat} (hb : b < 8) : a.getLsbD (7 - b) = a.getMsbD b := by
  simp [BitVec.getMsbD, hb]

/-- A nibble counts fewer rows than the screen has, so the rows of a sprite are distinct (R183). -/
theorem nibble_toNat_le (n : Nibble) : n.toNat ≤ 32 := Nat.le_of_lt (Nat.lt_trans n.isLt (by decide))

section
variable (s : State) (base cx cy : Nat) (n : Nibble)

/-- A visited pixel is XORed with its sprite bit. -/
theorem pixel_drawSprite {r b : Nat} (hr : r < n.toNat) (hb : b < 8) :
    (drawSprite s base cx cy n.toNat).1.pixel (toColumn (cx + b)) (toRow (cy + r)) =
      (s.screen.pixel (toColumn (cx + b)) (toRow (cy + r)) ^^ (memRead s (toAddr (base + r))).getMsbD b) := by
  obtain ⟨hit, -, -⟩ := drawSprite_spec s base cx cy n.toNat (nibble_toNat_le n)
  rw [hit r hr b hb, getLsbD_seven_sub _ hb]

/-- A pixel that no bit of the sprite visits is kept. -/
theorem pixel_drawSprite_of_unvisited {c : Fin 64} {q : Fin 32}
    (h : ∀ r < n.toNat, ∀ b < 8, ¬(toColumn (cx + b) = c ∧ toRow (cy + r) = q)) :
    (drawSprite s base cx cy n.toNat).1.pixel c q = s.screen.pixel c q := by
  obtain ⟨-, miss, -⟩ := drawSprite_spec s base cx cy n.toNat (nibble_toNat_le n)
  exact miss c q fun r hr b hb hc hq => h r hr b hb ⟨hc, hq⟩

/-- The collision flag says whether a set pixel lay under a set bit. -/
theorem drawSprite_collides_iff :
    (drawSprite s base cx cy n.toNat).2 = true ↔
      ∃ r < n.toNat, ∃ b < 8, s.screen.pixel (toColumn (cx + b)) (toRow (cy + r)) = true ∧
        (memRead s (toAddr (base + r))).getMsbD b = true := by
  obtain ⟨-, -, col⟩ := drawSprite_spec s base cx cy n.toNat (nibble_toNat_le n)
  rw [col]
  refine exists_congr fun r => and_congr_right fun _ => exists_congr fun b => and_congr_right fun hb => ?_
  rw [getLsbD_seven_sub _ hb]

end

/-! ### The sprite address policy (R7, R182) -/

/-- A draw of no row, or whose last row is at 0xFFF or below, does not read past the end. -/
theorem spritePastEnd_eq_false {base n : Nat} (h : n = 0 ∨ base + n ≤ 0x1000) : spritePastEnd base n = false :=
  decide_eq_false (by omega)

/-- A draw whose last row is above 0xFFF reads past the end. -/
theorem spritePastEnd_eq_true {base n : Nat} (hn : 1 ≤ n) (h : base + n > 0x1000) : spritePastEnd base n = true :=
  decide_eq_true (by omega)

/-- Where no row is past the end the two policies agree. -/
theorem execDrwWith_fault_of_in_range (x y : RegIdx) {n : Nibble} {s : State}
    (h : spritePastEnd s.i.toNat n.toNat = false) : execDrwWith .fault x y n s = execDrw x y n s := by
  simp [execDrw, execDrwWith, h, params]

/-- Where a row is past the end the policy `fault` raises SpriteRange. -/
theorem execDrwWith_fault_of_past_end (x y : RegIdx) {n : Nibble} {s : State}
    (h : spritePastEnd s.i.toNat n.toNat = true) :
    execDrwWith .fault x y n s = .next (raiseFault .spriteRange s) := by
  simp [execDrwWith, h]

/-- A raised fault records the pc of the instruction that raised it. -/
theorem toNat_fsFpc_raiseFault (f : Fault) {s : State} (hpc : s.pc.toNat < 0x1000) :
    (fsFpc (raiseFault f s).fs).toNat = s.pc.toNat := by
  rw [raiseFault_fs, fsFpc_fsWord, toAddr, BitVec.toNat_ofNat]
  exact Nat.mod_eq_of_lt hpc

/-- A raised fault writes FS alone. -/
theorem raiseFault_keeps (f : Fault) (s : State) : KeepsAllBut [] s { raiseFault f s with fs := s.fs } :=
  ⟨fun _ _ => rfl, rfl, rfl, fun _ => rfl, fun _ _ => rfl, rfl, fun _ => rfl, rfl⟩

/-! ### Dxyn (R182) -/

/-- VF after a draw is the collision flag, whichever registers the draw names. -/
theorem readV_vf_drawn (col : Bool) (scr : Screen) (s : State) :
    readV (advance (writeV VF (boolByte col) (writeScreen scr s))) VF = boolByte col := by
  rw [readV_advance, readV_writeV_same]

/-- Settles O54: the pixels and the flag are those of the sprite loop, and with the old screen put back the step is a write
of VF and pc alone. Under the other policy the draw is the same in range, and past the end it is a raised SpriteRange. -/
theorem drawXorsSpriteAndSetsCollision : Obligations.DrawXorsSpriteAndSetsCollision := by
  refine ⟨fun x y n s => ?_, fun x y n s h => execDrwWith_fault_of_in_range x y (spritePastEnd_eq_false h),
    fun x y n s hn hpast hpc => ?_⟩
  · have collides := drawSprite_collides_iff s s.i.toNat (readV s x).toNat (readV s y).toNat n
    refine ⟨_, execDrw_eq x y n s, fun r hr b hb => pixel_drawSprite s _ _ _ n hr hb,
      fun c q h => pixel_drawSprite_of_unvisited s _ _ _ n h, fun hset => ?_, fun hclear => ?_,
      advance_pcMoved _, finishPlain_keeps VF _ s⟩
    · rw [readV_vf_drawn, collides.mpr hset]
      rfl
    · have hcol := Bool.eq_false_iff.mpr fun h =>
        let ⟨r, hr, b, hb, hunder⟩ := collides.mp h
        hclear r hr b hb hunder
      rw [readV_vf_drawn, hcol]
      rfl
  · exact ⟨_, execDrwWith_fault_of_past_end x y (spritePastEnd_eq_true hn hpast), fsCause_fsWord _ _,
      toNat_fsFpc_raiseFault .spriteRange hpc, fsWord_unused _ _, rfl, raiseFault_keeps .spriteRange s⟩

end Sys2Proof.Machine
end

section
/-! PROOFS of the statement about reset (spec file 70_reset_and_hazards.md): reset is the way out of the faulted state, and no
step is. -/

namespace Sys2Proof.Machine

/-- Reset forgets the state but for the count of draws, which stands outside the block (R39, log entry 5). -/
theorem hostReset_withDraws (s : State) (n : Nat) :
    { hostReset s with draws := n } = { State.reset with draws := n } := rfl

/-- A faulted state takes no step (R120, R203): one that steps was unfaulted. -/
theorem unfaulted_of_step_next {s t : State} (h : step s = .next t) : s.Unfaulted :=
  ((step_eq_next_iff s t).mp h).left

/-- Settles O14: reset depends on the count of draws alone, and a state that steps has no fault in FS for the step to clear. -/
theorem hostResetFromAnyState : Obligations.HostResetFromAnyState :=
  ⟨fun s => hostReset_withDraws s 0, fun _ _ h => unfaulted_of_step_next h⟩

end Sys2Proof.Machine
end

section
/-! PROOFS of the statements about the decoder and the encoder (spec file 30_encoding.md): decoding an encoding, encoding a
decoding, the row the decoder picks, and the other sub-key width of group 0. -/

namespace Sys2Proof

/-! ### Decoding of encoding (R85, R89) -/

/-- A word of group E whose kk misses both keys takes the group's catch-all row. -/
theorem decodeGroupE_of_ne {w : Word} (h9E : fieldKk w ≠ 0x9E#8) (hA1 : fieldKk w ≠ 0xA1#8) :
    decodeGroupE w = .nopEx (fieldX w) (fieldKk w) := by
  rw [decodeGroupE, if_neg h9E, if_neg hA1]

/-- A word of group F whose kk misses the nine keys takes the group's catch-all row. -/
theorem decodeGroupF_of_not_mem {w : Word} (h : fieldKk w ∉ groupFKeys) :
    decodeGroupF w = .nopFx (fieldX w) (fieldKk w) := by
  simp_all [decodeGroupF, groupFKeys]

/-- Each instruction's word has the group, the sub-key and the fields of its own row. A catch-all row is the last branch of its
group's decoder, and well-formedness says that the field misses the branches before it. -/
theorem decode_encode {i : Instr} (hwf : i.wf = true) : decode (encode i) = i := by
  cases i with
  | cls | ret => decide
  | jp | call | ldI | jpV0 | seImm | sneImm | ldImm | addImm | rnd | seReg | sneReg | drw =>
    simp [decode, encode, decodeWith]
  | ldReg | orReg | andReg | xorReg | addReg | subReg | shr | subnReg | shl
  | nop88 | nop89 | nop8A | nop8B | nop8C | nop8D | nop8F =>
    rw [encode, decode, decodeWith_group8 _ (fieldG_wordOfNibbles ..)]
    simp [decodeGroup8]
  | nopEx9E | nopExA1 =>
    rw [encode, decode, decodeWith_groupE _ (fieldG_wordOfByte ..)]
    simp [decodeGroupE]
  | nopFx07 | nopFx0A | nopFx15 | nopFx18 | nopFx29 | nopFx33 | nopFx55 | nopFx65 | nopFx1E =>
    rw [encode, decode, decodeWith_groupF _ (fieldG_wordOfByte ..)]
    simp [decodeGroupF]
  | nop0 nnn =>
    have hkeys : nnn ≠ 0x0E0#12 ∧ nnn ≠ 0x0EE#12 := by simpa [Instr.wf] using hwf
    rw [encode, decode, decodeWith_group0 _ (fieldG_wordOfAddr ..)]
    simp [decodeGroup0, Machine.params, hkeys]
  | nopEx x kk =>
    have hkeys : kk ≠ 0x9E#8 ∧ kk ≠ 0xA1#8 := by simpa [Instr.wf] using hwf
    rw [encode, decode, decodeWith_groupE _ (fieldG_wordOfByte ..), decodeGroupE_of_ne] <;> simp [hkeys]
  | nopFx x kk =>
    have hkeys : kk ∉ groupFKeys := by simpa [Instr.wf] using hwf
    rw [encode, decode, decodeWith_groupF _ (fieldG_wordOfByte ..), decodeGroupF_of_not_mem] <;> simp [hkeys]

/-- Settles O1: the encoder's word carries each instruction's own group, sub-key and fields. -/
theorem decodeOfEncodeIsIdentity : Obligations.DecodeOfEncodeIsIdentity := fun _ hwf => decode_encode hwf

/-- Settles O5: each of the twenty words is the encoding of the instruction it is said to decode to. -/
theorem vectorWordsDecode : Obligations.VectorWordsDecode :=
  ⟨decode_encode (i := .cls) rfl, decode_encode (i := .ret) rfl, decode_encode (i := .jp 0x234) rfl,
    decode_encode (i := .call 0x20A) rfl, decode_encode (i := .seReg 1 2 5) rfl, decode_encode (i := .sneReg 1 2 15) rfl,
    decode_encode (i := .jpV0 0x206) rfl, decode_encode (i := .shr 1 2) rfl, decode_encode (i := .subnReg 0 15) rfl,
    decode_encode (i := .shl 3 4) rfl, decode_encode (i := .addReg 15 0) rfl, decode_encode (i := .ldI 0x20E) rfl,
    decode_encode (i := .rnd 1 0xF0) rfl, decode_encode (i := .drw 0 1 2) rfl, decode_encode (i := .nop0 0x123) rfl,
    decode_encode (i := .nop0 0x1E0) rfl, decode_encode (i := .nop88 0 0) rfl, decode_encode (i := .nopEx9E 0) rfl,
    decode_encode (i := .nopFx1E 0) rfl, decode_encode (i := .nopFx 15 0xFF) rfl⟩

/-! ### Encoding of decoding (R81, R89) -/

/-- A bit vector is the one of its number. -/
theorem eq_ofNat_of_toNat_eq {m k : Nat} {x : BitVec m} (h : x.toNat = k) : x = BitVec.ofNat m k := by
  rw [← h, BitVec.ofNat_toNat, BitVec.setWidth_eq]

/-- A word of group 0 is the word of its decoded row: a sub-key that names a row is the rest of the word. -/
theorem encode_decodeGroup0 {w : Word} (h : fieldG w = 0) :
    (decodeGroup0 .full12 w).wf = true ∧ encode (decodeGroup0 .full12 w) = w := by
  have hw : wordOfAddr 0 (fieldNnn w) = w := h ▸ wordOfAddr_fields w
  unfold decodeGroup0
  dsimp only
  split_ifs with hcls hret
  · exact ⟨rfl, by rw [← hw, hcls]; rfl⟩
  · exact ⟨rfl, by rw [← hw, hret]; rfl⟩
  · exact ⟨by simp [Instr.wf, hcls, hret], hw⟩

/-- A word of group 8 is the word of its decoded row: its sub-key is the row's n. -/
theorem encode_decodeGroup8 {w : Word} (h : fieldG w = 8) :
    (decodeGroup8 w).wf = true ∧ encode (decodeGroup8 w) = w := by
  have hw : wordOfNibbles 8 (fieldX w) (fieldY w) (fieldN w) = w := h ▸ wordOfNibbles_fields w
  have hlt : (fieldN w).toNat < 16 := (fieldN w).isLt
  unfold decodeGroup8
  interval_cases hn : (fieldN w).toNat
  all_goals
    rw [eq_ofNat_of_toNat_eq hn] at hw
    exact ⟨rfl, hw⟩

/-- A word of group E is the word of its decoded row: its kk is the row's key, or the catch-all row holds it. -/
theorem encode_decodeGroupE {w : Word} (h : fieldG w = 14) :
    (decodeGroupE w).wf = true ∧ encode (decodeGroupE w) = w := by
  have hw : wordOfByte 14 (fieldX w) (fieldKk w) = w := h ▸ wordOfByte_fields w
  unfold decodeGroupE
  split_ifs with h9E hA1
  · exact ⟨rfl, by rw [h9E] at hw; exact hw⟩
  · exact ⟨rfl, by rw [hA1] at hw; exact hw⟩
  · exact ⟨by simp [Instr.wf, h9E, hA1], hw⟩

/-- A word of group F is the word of its decoded row: its kk is the row's key, or the catch-all row holds it. -/
theorem encode_decodeGroupF {w : Word} (h : fieldG w = 15) :
    (decodeGroupF w).wf = true ∧ encode (decodeGroupF w) = w := by
  have hw : wordOfByte 15 (fieldX w) (fieldKk w) = w := h ▸ wordOfByte_fields w
  by_cases hkey : fieldKk w ∈ groupFKeys
  · unfold decodeGroupF
    split_ifs with hk hk hk hk hk hk hk hk hk
    on_goal 10 => exact absurd hkey (by simp_all [groupFKeys])
    all_goals exact ⟨rfl, by rw [hk] at hw; exact hw⟩
  · rw [decodeGroupF_of_not_mem hkey]
    exact ⟨by simp [Instr.wf, hkey], hw⟩

/-- The sixteen groups, by whether they have a sub-key and, where they have none, by the format of their words (R81, R84). -/
theorem group_cases : ∀ g : Nibble, g = 0 ∨ g = 8 ∨ g = 14 ∨ g = 15 ∨ (g = 1 ∨ g = 2 ∨ g = 10 ∨ g = 11) ∨
    (g = 3 ∨ g = 4 ∨ g = 6 ∨ g = 7 ∨ g = 12) ∨ (g = 5 ∨ g = 9 ∨ g = 13) := by decide

/-- Every word decodes to a well-formed instruction whose word it is: by its group, which with the fields that the decoder
keeps is the whole word. -/
theorem wf_encode_decode (w : Word) : (decode w).wf = true ∧ encode (decode w) = w := by
  have haddr := wordOfAddr_fields w
  have hbyte := wordOfByte_fields w
  have hnibbles := wordOfNibbles_fields w
  obtain h0 | h8 | hE | hF | hFA | hFK | hFR := group_cases (fieldG w)
  · rw [decode, decodeWith_group0 _ h0]
    exact encode_decodeGroup0 h0
  · rw [decode, decodeWith_group8 _ h8]
    exact encode_decodeGroup8 h8
  · rw [decode, decodeWith_groupE _ hE]
    exact encode_decodeGroupE hE
  · rw [decode, decodeWith_groupF _ hF]
    exact encode_decodeGroupF hF
  · rcases hFA with hg | hg | hg | hg <;> rw [hg] at haddr <;> simp only [decode, decodeWith, hg] <;> exact ⟨rfl, haddr⟩
  · rcases hFK with hg | hg | hg | hg | hg <;> rw [hg] at hbyte <;> simp only [decode, decodeWith, hg] <;>
      exact ⟨rfl, hbyte⟩
  · rcases hFR with hg | hg | hg <;> rw [hg] at hnibbles <;> simp only [decode, decodeWith, hg] <;>
      exact ⟨rfl, hnibbles⟩

/-- Settles O2: the decoder keeps the fields that, after the group, are the rest of the word. -/
theorem encodeOfDecodeIsIdentity : Obligations.EncodeOfDecodeIsIdentity := wf_encode_decode

/-! ### The row of the opcode table (R89) -/

/-- The family RowMatch put together: every instruction's word lies in the instruction's own row, a row of the table. -/
theorem Laws.RowMatch.all (i : Instr) : RowMatch.Statement i :=
  match i with
  | .cls => RowMatch.cls | .ret => RowMatch.ret | .jp _ => RowMatch.jp _ | .call _ => RowMatch.call _
  | .seImm _ _ => RowMatch.seImm _ _ | .sneImm _ _ => RowMatch.sneImm _ _ | .seReg _ _ _ => RowMatch.seReg _ _ _
  | .ldImm _ _ => RowMatch.ldImm _ _ | .addImm _ _ => RowMatch.addImm _ _ | .ldReg _ _ => RowMatch.ldReg _ _
  | .orReg _ _ => RowMatch.orReg _ _ | .andReg _ _ => RowMatch.andReg _ _ | .xorReg _ _ => RowMatch.xorReg _ _
  | .addReg _ _ => RowMatch.addReg _ _ | .subReg _ _ => RowMatch.subReg _ _ | .shr _ _ => RowMatch.shr _ _
  | .subnReg _ _ => RowMatch.subnReg _ _ | .shl _ _ => RowMatch.shl _ _ | .sneReg _ _ _ => RowMatch.sneReg _ _ _
  | .ldI _ => RowMatch.ldI _ | .jpV0 _ => RowMatch.jpV0 _ | .rnd _ _ => RowMatch.rnd _ _
  | .drw _ _ _ => RowMatch.drw _ _ _ | .nop0 _ => RowMatch.nop0 _ | .nop88 _ _ => RowMatch.nop88 _ _
  | .nop89 _ _ => RowMatch.nop89 _ _ | .nop8A _ _ => RowMatch.nop8A _ _ | .nop8B _ _ => RowMatch.nop8B _ _
  | .nop8C _ _ => RowMatch.nop8C _ _ | .nop8D _ _ => RowMatch.nop8D _ _ | .nop8F _ _ => RowMatch.nop8F _ _
  | .nopEx9E _ => RowMatch.nopEx9E _ | .nopExA1 _ => RowMatch.nopExA1 _ | .nopEx _ _ => RowMatch.nopEx _ _
  | .nopFx07 _ => RowMatch.nopFx07 _ | .nopFx0A _ => RowMatch.nopFx0A _ | .nopFx15 _ => RowMatch.nopFx15 _
  | .nopFx18 _ => RowMatch.nopFx18 _ | .nopFx29 _ => RowMatch.nopFx29 _ | .nopFx33 _ => RowMatch.nopFx33 _
  | .nopFx55 _ => RowMatch.nopFx55 _ | .nopFx65 _ => RowMatch.nopFx65 _ | .nopFx1E _ => RowMatch.nopFx1E _
  | .nopFx _ _ => RowMatch.nopFx _ _

/-- The row of the decoded instruction is in the table and matches the word. -/
theorem decoded_row_matches (w : Word) :
    tableRow (decode w) ∈ tableRows ∧ rowMatches (tableRow (decode w)) w = true := by
  obtain ⟨-, hword⟩ := wf_encode_decode w
  simpa only [Laws.RowMatch.Statement, hword] using Laws.RowMatch.all (decode w)

/-- Only the catch-all rows of groups 0, E and F have the match word of the group and the mask of the group alone. -/
theorem catchAll_of_tableRow {i : Instr} :
    (tableRow i = (0x0000, 0xF000) → ∃ nnn, i = .nop0 nnn) ∧
    (tableRow i = (0xE000, 0xF000) → ∃ x kk, i = .nopEx x kk) ∧
    (tableRow i = (0xF000, 0xF000) → ∃ x kk, i = .nopFx x kk) := by
  cases i <;> simp [tableRow]

/-- A word that decodes to the catch-all row of group 0 is neither of the two words it loses to. -/
theorem ne_of_decode_nop0 {w : Word} {nnn : Addr} (h : decode w = .nop0 nnn) : w ≠ 0x00E0 ∧ w ≠ 0x00EE := by
  constructor <;> rintro rfl
  · exact nomatch (decode_encode (i := .cls) rfl).symm.trans h
  · exact nomatch (decode_encode (i := .ret) rfl).symm.trans h

/-- A word that decodes to the catch-all row of group E misses the two keys it loses to. -/
theorem fieldKk_of_decode_nopEx {w : Word} {x : RegIdx} {kk : Byte} (h : decode w = .nopEx x kk) :
    fieldKk w ≠ 0x9E ∧ fieldKk w ≠ 0xA1 := by
  obtain ⟨hwf, hw⟩ := wf_encode_decode w
  rw [h] at hwf hw
  rw [← hw, encode, fieldKk_wordOfByte]
  simpa [Instr.wf] using hwf

/-- A word that decodes to the catch-all row of group F misses the nine keys it loses to. -/
theorem fieldKk_of_decode_nopFx {w : Word} {x : RegIdx} {kk : Byte} (h : decode w = .nopFx x kk) :
    fieldKk w ∉ groupFKeys := by
  obtain ⟨hwf, hw⟩ := wf_encode_decode w
  rw [h] at hwf hw
  rw [← hw, encode, fieldKk_wordOfByte]
  simpa [Instr.wf] using hwf

/-- A row whose mask keeps the trailing byte matches only words with its own trailing byte. -/
theorem fieldKk_of_rowMatches {q : Word × Word} {w : Word} (hq : q.2 = 0xF0FF) (h : rowMatches q w = true) :
    fieldKk w = fieldKk q.1 := by
  rw [rowMatches, beq_iff_eq, hq, show w &&& (0xF0FF : Word) = _ from and_groupByteMask w] at h
  rw [← h, fieldKk_wordOfByte]

/-- Settles O3: of two overlapping rows the first is heavier but where it is a catch-all row and the second names a key. A
word that decodes to a catch-all row misses those keys, so there the second row does not match. -/
theorem decodePicksHeaviestRow : Obligations.DecodePicksHeaviestRow := by
  intro w
  obtain ⟨hrow, hmatch⟩ := decoded_row_matches w
  refine ⟨hrow, hmatch, fun q hq hqmatch hne => ?_⟩
  obtain ⟨h0, hE, hF⟩ := catchAll_of_tableRow (i := decode w)
  obtain hlt | ⟨hmask, ⟨hbits, hkey⟩ | ⟨hbits, hqmask, hkey⟩ | ⟨hbits, hqmask, hkey⟩⟩ :=
    overlapping_rows _ hrow q hq (rows_agree_of_both_match hmatch hqmatch) hne.symm
  · exact hlt
  · obtain ⟨nnn, hi⟩ := h0 (Prod.ext hbits hmask)
    obtain ⟨hcls, hret⟩ := ne_of_decode_nop0 hi
    obtain rfl | rfl := hkey
    · exact absurd ((rowMatches_whole _ w).mp hqmatch) hcls
    · exact absurd ((rowMatches_whole _ w).mp hqmatch) hret
  · obtain ⟨x, kk, hi⟩ := hE (Prod.ext hbits hmask)
    obtain ⟨h9E, hA1⟩ := fieldKk_of_decode_nopEx hi
    rw [← fieldKk_of_rowMatches hqmask hqmatch] at hkey
    exact (hkey.elim h9E hA1).elim
  · obtain ⟨x, kk, hi⟩ := hF (Prod.ext hbits hmask)
    rw [← fieldKk_of_rowMatches hqmask hqmatch] at hkey
    exact absurd hkey (fieldKk_of_decode_nopFx hi)

/-! ### GROUP0_KEY = low_byte (R84; decision D2) -/

/-- The sub-key width of group 0 touches no other group. -/
theorem decodeWith_lowByte_of_ne {w : Word} (h : fieldG w ≠ 0) : decodeWith .lowByte w = decode w := by
  unfold decode decodeWith
  split
  case h_1 hg => exact absurd (BitVec.eq_of_toNat_eq hg) h
  all_goals rfl

/-- Settles O6: every other group's decoder is without the key, and group 0 under low_byte is the chain on kk. -/
theorem lowByteKeyMatchesTrailingByte : Obligations.LowByteKeyMatchesTrailingByte := fun _ =>
  ⟨decodeWith_lowByte_of_ne, fun h => decodeWith_group0 .lowByte h⟩

end Sys2Proof
end

section
/-! PROOFS of the statements about what every effect keeps: the stack entries, I, FS, the count of draws, and the invariant of
the block (spec files 10_state.md and 60_exceptions.md). Each is read off the shapes of an effect. -/

namespace Sys2Proof.Machine

/-- A handler's or a step's next state is one state. -/
theorem next_inj {s t : State} (h : (.next s : Result State) = .next t) : s = t := by
  injection h

/-! ### Stack entries (R29, R30) -/

/-- An effect leaves a stack entry, or is a call that writes the return address to the entry at the old SP. -/
theorem Effect.stackEntry_cases {i : Instr} {s t : State} (he : Effect i s t) (k : Fin 16) :
    stackEntry t k = stackEntry s k ∨ (∃ nnn, i = .call nnn) ∧ k.val = s.sp.val ∧ stackEntry t k = returnAddress s := by
  cases he with
  | pushed nnn _ h =>
    rw [stackEntry_writePc, stackEntry_pushEntry]
    split
    case isTrue hk => exact .inr ⟨⟨nnn, rfl⟩, hk.symm, rfl⟩
    case isFalse => exact .inl rfl
  | moved | plain | random | flagged | address | popped | overflowed | underflowed | cleared | drawn => exact .inl rfl

/-- Settles O27: the one effect that changes an entry is a call's push. -/
theorem stackEntriesWrittenByCallOnly : Obligations.StackEntriesWrittenByCallOnly := by
  intro i s t h k hne
  obtain heq | ⟨hcall, hk, hentry⟩ := (effect_of_exec h).stackEntry_cases k
  · exact absurd heq hne
  · exact ⟨hcall, hk, hentry ▸ toNat_returnAddress s⟩

/-! ### The address register (R27) -/

/-- An effect leaves I, or is that of Annn, which sets it to nnn. -/
theorem Effect.i_cases {i : Instr} {s t : State} (he : Effect i s t) :
    t.i = s.i ∨ ∃ nnn : Addr, i = .ldI nnn ∧ t.i.toNat = nnn.toNat := by
  cases he with
  | address nnn => exact .inr ⟨nnn, rfl, toNat_addrOperand nnn⟩
  | moved | plain | random | flagged | pushed | popped | overflowed | underflowed | cleared | drawn => exact .inl rfl

/-- I at most 0xFFF stays so, since nnn has 12 bits. -/
theorem Effect.i_lt {i : Instr} {s t : State} (he : Effect i s t) (h : s.i.toNat < 0x1000) : t.i.toNat < 0x1000 := by
  obtain heq | ⟨nnn, -, hi⟩ := he.i_cases
  · exact heq ▸ h
  · exact hi ▸ nnn.isLt

/-! ### The fault status register (R38, R201) -/

/-- An effect leaves FS, or raises one of the two stack faults where the stack has no room or no entry. -/
theorem Effect.fs_cases {i : Instr} {s t : State} (he : Effect i s t) :
    t.fs = s.fs ∨ ((∃ nnn, i = .call nnn) ∧ s.sp.val = 16 ∧ t = raiseFault .stackOverflow s) ∨
      (i = .ret ∧ s.sp.val = 0 ∧ t = raiseFault .stackUnderflow s) := by
  cases he with
  | overflowed nnn _ h => exact .inr (.inl ⟨⟨nnn, rfl⟩, by omega, rfl⟩)
  | underflowed _ h => exact .inr (.inr ⟨rfl, by omega, rfl⟩)
  | moved | plain | random | flagged | address | pushed | popped | cleared | drawn => exact .inl rfl

/-- A legal FS stays legal (R38). -/
theorem Effect.fs_legal {i : Instr} {s t : State} (he : Effect i s t) (h : FsLegal s.fs) : FsLegal t.fs := by
  obtain heq | ⟨-, -, rfl⟩ | ⟨-, -, rfl⟩ := he.fs_cases
  · exact heq ▸ h
  · exact fsLegal_raiseFault (by decide) s
  · exact fsLegal_raiseFault (by decide) s

/-! ### The count of draws (R39) -/

/-- The effect of Cxkk moves the count of draws on by one. -/
theorem Effect.draws_of_rnd {x : RegIdx} {kk : Byte} {s t : State} (he : Effect (.rnd x kk) s t) :
    t.draws = s.draws + 1 := by
  cases he with
  | random => rfl
  | moved _ _ _ h | plain _ _ _ _ h | flagged _ _ _ _ _ h => exact absurd rfl (h x kk)

/-- The effect of any other instruction leaves the count of draws. -/
theorem Effect.draws_eq {i : Instr} {s t : State} (he : Effect i s t) (hi : ∀ x kk, i ≠ .rnd x kk) :
    t.draws = s.draws := by
  cases he with
  | random x kk => exact absurd rfl (hi x kk)
  | moved | plain | flagged | address | pushed | popped | overflowed | underflowed | cleared | drawn => rfl

/-! ### The invariant -/

/-- Every effect but a raised fault writes pc, and a written pc is below 0x1000 (R24). -/
theorem Effect.pc_lt {i : Instr} {s t : State} (he : Effect i s t) (h : s.pc.toNat < 0x1000) : t.pc.toNat < 0x1000 := by
  have hwritten : ∀ n u, (writePc n u).pc.toNat < 0x1000 := fun n u =>
    toNat_writePc n u ▸ Nat.mod_lt n (by decide)
  cases he with
  | overflowed | underflowed => exact h
  | moved | plain | random | flagged | address | pushed | popped | cleared | drawn => exact hwritten _ _

/-- Stack entries below 0x1000 stay so, since a return address is reduced (R29). -/
theorem Effect.stack_lt {i : Instr} {s t : State} (he : Effect i s t) (h : ∀ k, (stackEntry s k).toNat < 0x1000)
    (k : Fin 16) : (stackEntry t k).toNat < 0x1000 := by
  obtain heq | ⟨-, -, hentry⟩ := he.stackEntry_cases k
  · exact heq ▸ h k
  · rw [hentry, toNat_returnAddress]
    exact Nat.mod_lt _ (by decide)

/-- Every effect keeps the invariant. -/
theorem Effect.inv {i : Instr} {s t : State} (he : Effect i s t) (h : s.Inv) : t.Inv where
  pc_lt := he.pc_lt h.pc_lt
  i_lt := he.i_lt h.i_lt
  stack_lt := he.stack_lt h.stack_lt
  fs_legal := he.fs_legal h.fs_legal
  mem_wf := he.mem_eq ▸ h.mem_wf

/-- Every step keeps the invariant. -/
theorem step_keeps_inv {s t : State} (hinv : s.Inv) (h : step s = .next t) : t.Inv := by
  obtain ⟨-, hexec⟩ := (step_eq_next_iff s t).mp h
  exact (effect_of_exec hexec).inv hinv

/-- Settles O20: a step that answers a next state is an effect of the decoded instruction, and every effect keeps each part
of the invariant. -/
theorem stepKeepsInv : Obligations.StepKeepsInv := fun _ _ => step_keeps_inv

/-- FS at 0 is legal: no CAUSE, no FPC. -/
theorem fsLegal_zero : FsLegal 0 := ⟨by decide, by decide, by decide⟩

/-- The reset state meets the invariant, whatever the count of draws. -/
theorem reset_inv (n : Nat) : ({ State.reset with draws := n } : State).Inv where
  pc_lt := show (0x200 : Word).toNat < 0x1000 by decide
  i_lt := show (0 : Word).toNat < 0x1000 by decide
  stack_lt k := (stackEntry_reset k).symm ▸ by decide
  fs_legal := fsLegal_zero
  mem_wf := reset_mem_wf

/-- Settles O19: every field of the invariant is at its reset value. -/
theorem invHoldsAtReset : Obligations.InvHoldsAtReset := reset_inv 0

/-- A change of memory alone keeps the invariant where the new memory is canonical. -/
theorem inv_withMem {s : State} {m : Memory} (h : s.Inv) (hm : m.wf = true) : ({ s with mem := m } : State).Inv where
  pc_lt := h.pc_lt
  i_lt := h.i_lt
  stack_lt := h.stack_lt
  fs_legal := h.fs_legal
  mem_wf := hm

/-- A loaded program is placed at 0x200. -/
theorem eq_placeBytes_of_loadProgram {image : List Byte} {s t : State} (h : loadProgram image s = some t) :
    t = placeBytes 0x200 image s := by
  unfold loadProgram at h
  split at h
  · exact (Option.some.inj h).symm
  · cases h

/-- Every state that the host can bring about, in either phase, meets the invariant. -/
theorem Reaches.inv {p : Phase} {s : State} (h : Reaches p s) : s.Inv := by
  induction h with
  | boot => exact reset_inv 0
  | @write a b s _ ih => exact inv_withMem ih (Memory.wf_store ih.mem_wf a b)
  | @load image s t _ hload ih =>
    rw [eq_placeBytes_of_loadProgram hload, placeBytes_eq]
    exact inv_withMem ih (placeBytes_wf 0x200 image ih.mem_wf)
  | step _ hstep ih => exact step_keeps_inv ih hstep
  | @reset _ s _ _ => exact reset_inv s.draws

/-- Settles O21: by induction on what the host and the block did; a host's write and a load keep memory canonical. -/
theorem reachableStatesMeetInv : Obligations.ReachableStatesMeetInv := fun _ ⟨_, h⟩ => h.inv

end Sys2Proof.Machine
end

section
/-! PROOFS of the statements about what an instruction reads (spec rules R22, R27, R39, R186 and spec file 10_state.md). A
handler reads its inputs and then writes, and `Writes i F` lists the writes `F` that instruction `i` can come to: two states
with the same inputs get the same write (`exec_of_sameInputs`). So an instruction reads nothing else, and a change of anything
else beforehand stands afterwards exactly where the write commutes with it. -/

namespace Sys2Proof.Machine

/-! ### Inputs and writes -/

/-- `s'` agrees with `s` on all that instruction `i` reads: pc, the stack, its register operands, and for Dxyn also I, memory
and the screen. The count of draws is left out: Cxkk takes the byte as a part of its write. -/
structure SameInputs (i : Instr) (s s' : State) : Prop where
  pc : s'.pc = s.pc
  sp : s'.sp = s.sp
  stack : s'.stack = s.stack
  regs : ∀ r ∈ readsV i, readV s' r = readV s r
  sprite : ∀ x y n, i = .drw x y n → s'.i = s.i ∧ s'.mem = s.mem ∧ s'.screen = s.screen

/-- The stack with SP and the entries replaced. -/
def writeStack (k : Fin 17) (entries : Vector Word 16) (s : State) : State := { s with sp := k, stack := entries }

/-- The writes an instruction can come to once its operands are read: the shapes of `Effect`, as functions of the state. -/
inductive Writes : Instr → (State → State) → Prop where
  | moved (i k) (h : writesV i = []) : Writes i fun t => writePc (t.pc.toNat + k) t
  | jumped (i n) (h : writesV i = []) : Writes i (writePc n)
  | plain (i x r) (h : writesV i = [x]) : Writes i (finishPlain x r)
  | random (x kk) : Writes (.rnd x kk) fun t => finishPlain x (randOffered t &&& kk) (takeRand t)
  | flagged (i x r f) (h : writesV i = [x, VF]) : Writes i (finishFlag x r f)
  | address (nnn) : Writes (.ldI nnn) fun t => advance (writeI (addrOperand nnn) t)
  | called (nnn n k entries) : Writes (.call nnn) fun t => writePc n (writeStack k entries t)
  | returned (n k entries) : Writes .ret fun t => writePc n (writeStack k entries t)
  | overflowed (nnn) : Writes (.call nnn) (raiseFault .stackOverflow)
  | underflowed : Writes .ret (raiseFault .stackUnderflow)
  | cleared : Writes .cls fun t => advance (writeScreen clearScreen t)
  | drawn (x y n scr col) : Writes (.drw x y n) fun t => advance (writeV VF (boolByte col) (writeScreen scr t))

/-- Two states with the same I, memory and screen draw the same sprite. -/
theorem drawSprite_congr {s s' : State} (hmem : s'.mem = s.mem) (hscreen : s'.screen = s.screen) (base cx cy n : Nat) :
    drawSprite s' base cx cy n = drawSprite s base cx cy n := by
  have hrow : drawRow s' base cx cy = drawRow s base cx cy := by
    funext acc r
    simp [drawRow, memRead_congr hmem]
  rw [drawSprite, drawSprite, hrow, hscreen]

/-- A handler that writes by the values of two register operands writes the same from the same inputs. -/
theorem SameInputs.exec_of_regs {i : Instr} {s s' : State} (h : SameInputs i s s') {x y : RegIdx}
    (W : Byte → Byte → State → State) (hreads : x ∈ readsV i ∧ y ∈ readsV i)
    (hexec : ∀ t, exec i t = .next (W (readV t x) (readV t y) t)) (hW : ∀ a b, Writes i (W a b)) :
    ∃ F, Writes i F ∧ exec i s = .next (F s) ∧ exec i s' = .next (F s') := by
  refine ⟨_, hW (readV s x) (readV s y), hexec s, ?_⟩
  rw [hexec, h.regs x hreads.1, h.regs y hreads.2]

/-- From the same inputs an instruction comes to the same write. -/
theorem exec_of_sameInputs {i : Instr} {s s' : State} (h : SameInputs i s s') :
    ∃ F, Writes i F ∧ exec i s = .next (F s) ∧ exec i s' = .next (F s') := by
  cases i with
  | cls => exact ⟨_, .cleared, rfl, rfl⟩
  | ret =>
    by_cases hentry : 0 < s.sp.val
    · refine ⟨_, .returned (topEntry s hentry).toNat (dropEntry s).sp s.stack, exec_ret_of_entry hentry, ?_⟩
      rw [exec_ret_of_entry (h.sp ▸ hentry)]
      simp [topEntry, dropEntry, writeStack, h.sp, h.stack]
    · exact ⟨_, .underflowed, exec_ret_of_empty hentry, exec_ret_of_empty (h.sp ▸ hentry)⟩
  | call nnn =>
    by_cases hroom : s.sp.val < 16
    · refine ⟨_, .called nnn (addrOperand nnn).toNat (pushEntry (returnAddress s) s hroom).sp
        (pushEntry (returnAddress s) s hroom).stack, exec_call_of_room nnn hroom, ?_⟩
      rw [exec_call_of_room nnn (h.sp ▸ hroom)]
      simp [pushEntry, returnAddress, writeStack, h.sp, h.stack, h.pc]
    · exact ⟨_, .overflowed nnn, exec_call_of_full nnn hroom, exec_call_of_full nnn (h.sp ▸ hroom)⟩
  | drw x y n =>
    obtain ⟨hi, hmem, hscreen⟩ := h.sprite x y n rfl
    refine ⟨_, .drawn x y n _ _, execDrw_eq x y n s, (execDrw_eq x y n s').trans ?_⟩
    rw [drawSprite_congr hmem hscreen, hi, h.regs x (by simp [readsV]), h.regs y (by simp [readsV])]
  | rnd x kk => exact ⟨_, .random x kk, rfl, rfl⟩
  | ldI nnn => exact ⟨_, .address nnn, rfl, rfl⟩
  | jp nnn => exact ⟨_, .jumped _ (addrOperand nnn).toNat rfl, rfl, rfl⟩
  | jpV0 nnn =>
    exact h.exec_of_regs (x := 0) (y := 0) (fun a _ => writePc (a.toNat + (addrOperand nnn).toNat)) (by simp [readsV])
      (fun _ => rfl) fun _ _ => .jumped _ _ rfl
  | seImm x kk =>
    exact h.exec_of_regs (x := x) (y := x) (fun a _ => skipIf (a == kk)) (by simp [readsV]) (fun _ => rfl)
      fun _ _ => .moved _ _ rfl
  | sneImm x kk =>
    exact h.exec_of_regs (x := x) (y := x) (fun a _ => skipIf (a != kk)) (by simp [readsV]) (fun _ => rfl)
      fun _ _ => .moved _ _ rfl
  | seReg x y =>
    exact h.exec_of_regs (fun a b => skipIf (a == b)) (by simp [readsV]) (fun _ => rfl) fun _ _ => .moved _ _ rfl
  | sneReg x y =>
    exact h.exec_of_regs (fun a b => skipIf (a != b)) (by simp [readsV]) (fun _ => rfl) fun _ _ => .moved _ _ rfl
  | ldImm x kk => exact ⟨_, .plain _ x kk rfl, rfl, rfl⟩
  | addImm x kk =>
    exact h.exec_of_regs (x := x) (y := x) (fun a _ => finishPlain x (addByte a kk)) (by simp [readsV]) (fun _ => rfl)
      fun _ _ => .plain _ x _ rfl
  | ldReg x y =>
    exact h.exec_of_regs (x := y) (y := y) (fun a _ => finishPlain x a) (by simp [readsV]) (fun _ => rfl)
      fun _ _ => .plain _ x _ rfl
  | orReg x y =>
    exact h.exec_of_regs (fun a b => finishPlain x (a ||| b)) (by simp [readsV]) (fun _ => rfl) fun _ _ => .plain _ x _ rfl
  | andReg x y =>
    exact h.exec_of_regs (fun a b => finishPlain x (a &&& b)) (by simp [readsV]) (fun _ => rfl) fun _ _ => .plain _ x _ rfl
  | xorReg x y =>
    exact h.exec_of_regs (fun a b => finishPlain x (a ^^^ b)) (by simp [readsV]) (fun _ => rfl) fun _ _ => .plain _ x _ rfl
  | addReg x y =>
    exact h.exec_of_regs (fun a b => finishFlag x (addByte a b) (carryFlag a b)) (by simp [readsV]) (fun _ => rfl)
      fun _ _ => .flagged _ x _ _ rfl
  | subReg x y =>
    exact h.exec_of_regs (fun a b => finishFlag x (subByte a b) (noBorrowFlag a b)) (by simp [readsV]) (fun _ => rfl)
      fun _ _ => .flagged _ x _ _ rfl
  | subnReg x y =>
    exact h.exec_of_regs (fun a b => finishFlag x (subByte b a) (noBorrowFlag b a)) (by simp [readsV]) (fun _ => rfl)
      fun _ _ => .flagged _ x _ _ rfl
  | shr x =>
    exact h.exec_of_regs (x := x) (y := x) (fun a _ => finishFlag x (a >>> 1) (lowBitFlag a)) (by simp [readsV]) (fun _ => rfl)
      fun _ _ => .flagged _ x _ _ rfl
  | shl x =>
    exact h.exec_of_regs (x := x) (y := x) (fun a _ => finishFlag x (a <<< 1) (highBitFlag a)) (by simp [readsV]) (fun _ => rfl)
      fun _ _ => .flagged _ x _ _ rfl
  | nop0 | nop88 | nop89 | nop8A | nop8B | nop8C | nop8D | nop8F | nopEx9E | nopExA1 | nopEx | nopFx07 | nopFx0A | nopFx15
  | nopFx18 | nopFx29 | nopFx33 | nopFx55 | nopFx65 | nopFx1E | nopFx => exact ⟨_, .moved _ 2 rfl, rfl, rfl⟩

/-- An update that leaves an instruction's inputs, and that each write of the instruction commutes with, stands afterwards. -/
theorem exec_update {i : Instr} {s : State} {U : State → State} (h : SameInputs i s (U s))
    (hU : ∀ F, Writes i F → F (U s) = U (F s)) : exec i (U s) = mapNext U (exec i s) := by
  obtain ⟨F, hF, hs, hs'⟩ := exec_of_sameInputs h
  rw [hs, hs', hU F hF, mapNext]

/-! ### Registers (R22, R31, R139) -/

/-- A register that an instruction does not read is no input of it. -/
theorem sameInputs_writeV {i : Instr} {r : RegIdx} (h : r ∉ readsV i) (b : Byte) (s : State) :
    SameInputs i s (writeV r b s) where
  pc := rfl
  sp := rfl
  stack := rfl
  regs q hq := readV_writeV_of_ne (fun e : r = q => h (e ▸ hq)) b s
  sprite _ _ _ _ := ⟨rfl, rfl, rfl⟩

/-- Every write overwrites a register of its instruction's table entry and commutes with a change of any other register. -/
theorem Writes.writeV_eq {i : Instr} {F : State → State} (hF : Writes i F) (r : RegIdx) (b : Byte) (s : State) :
    F (writeV r b s) = if r ∈ writesV i then F s else writeV r b (F s) := by
  cases hF with
  | moved _ _ h | jumped _ _ h => rw [h]; rfl
  | plain _ x q h => simpa [h] using finishPlain_writeV x q r b s
  | random x kk => exact (finishPlain_writeV x _ r b (takeRand s)).trans (if_congr (by simp [writesV]) rfl rfl)
  | flagged _ x q f h => simpa [h] using finishFlag_writeV x q f r b s
  | drawn x y n scr col => exact (finishPlain_writeV VF _ r b (writeScreen scr s)).trans (if_congr (by simp [writesV]) rfl rfl)
  | address | called | returned | overflowed | underflowed | cleared => rfl

/-- Settles O24: the changed register is no input, and every write either overwrites it or commutes with the change. -/
theorem onlyNamedRegistersAreRead : Obligations.OnlyNamedRegistersAreRead := by
  intro i s r b hr
  obtain ⟨F, hF, hs, hs'⟩ := exec_of_sameInputs (sameInputs_writeV hr b s)
  rw [hs, hs', hF.writeV_eq, mapNext]

/-! ### Updates of one other field -/

/-- Two states that differ outside pc, SP, the stack and the registers have the same inputs of an instruction that is no
draw. -/
theorem sameInputs_of_not_draw {i : Instr} (hi : ∀ x y n, i ≠ .drw x y n) {s s' : State} (hpc : s'.pc = s.pc)
    (hsp : s'.sp = s.sp) (hstack : s'.stack = s.stack) (hv : s'.v = s.v) : SameInputs i s s' where
  pc := hpc
  sp := hsp
  stack := hstack
  regs r _ := readV_congr hv r
  sprite x y n h := absurd h (hi x y n)

/-- Settles O25: of the writes only that of Annn touches I, and I is an input of Dxyn alone. -/
theorem addressRegisterWritersAndReaders : Obligations.AddressRegisterWritersAndReaders := by
  refine ⟨fun i s t h hne => (effect_of_exec h).i_cases.resolve_left hne, fun i s w hdrw hldI => ?_, fun _ _ _ => rfl, rfl,
    fun i s t h hlt => Nat.le_of_lt_succ ((effect_of_exec h).i_lt (Nat.lt_succ_of_le hlt))⟩
  refine exec_update (sameInputs_of_not_draw hdrw rfl rfl rfl rfl) fun F hF => ?_
  cases hF with
  | address nnn => exact absurd rfl (hldI nnn)
  | drawn x y n => exact absurd rfl (hdrw x y n)
  | moved | jumped | plain | random | flagged | called | returned | overflowed | underflowed | cleared => rfl

/-- An effect leaves the screen, or is that of CLS or Dxyn. -/
theorem Effect.screen_cases {i : Instr} {s t : State} (he : Effect i s t) :
    t.screen = s.screen ∨ i = .cls ∨ ∃ x y n, i = .drw x y n := by
  cases he with
  | cleared => exact .inr (.inl rfl)
  | drawn x y n => exact .inr (.inr ⟨x, y, n, rfl⟩)
  | moved | plain | random | flagged | address | pushed | popped | overflowed | underflowed => exact .inl rfl

/-- With the screen and VF overwritten, the end of a draw is a step from the state with both overwritten. -/
theorem drawn_overwritten (col : Bool) (scr : Screen) (s : State) :
    writeV VF 0 (writeScreen clearScreen (advance (writeV VF (boolByte col) (writeScreen scr s)))) =
      advance (writeV VF 0 (writeScreen clearScreen s)) :=
  congrArg advance (writeV_writeV_same VF 0 (boolByte col) (writeScreen clearScreen s))

/-- Settles O28: of the writes only those of CLS and Dxyn touch the screen, CLS does not look at it, and what Dxyn reads of it
goes to the screen and VF. -/
theorem screenWritersAndReaders : Obligations.ScreenWritersAndReaders := by
  refine ⟨fun i s t h ⟨c, r, hne⟩ => ?_, fun i s scr hcls hdrw => ?_, fun _ _ => rfl, fun x y n s scr => ?_⟩
  · exact (effect_of_exec h).screen_cases.resolve_left fun heq => hne (by rw [heq])
  · refine exec_update (sameInputs_of_not_draw hdrw rfl rfl rfl rfl) fun F hF => ?_
    cases hF with
    | cleared => exact absurd rfl hcls
    | drawn x y n => exact absurd rfl (hdrw x y n)
    | moved | jumped | plain | random | flagged | address | called | returned | overflowed | underflowed => rfl
  · refine ⟨_, _, execDrw_eq x y n s, execDrw_eq x y n (writeScreen scr s), ?_⟩
    rw [drawn_overwritten, drawn_overwritten]
    rfl

/-- Settles O29: no write touches memory, and memory is an input of Dxyn alone. -/
theorem onlyDrawReadsMemory : Obligations.OnlyDrawReadsMemory := by
  intro i s m hdrw
  refine exec_update (U := fun t => { t with mem := m }) (sameInputs_of_not_draw hdrw rfl rfl rfl rfl) fun F hF => ?_
  cases hF with
  | drawn x y n => exact absurd rfl (hdrw x y n)
  | moved | jumped | plain | random | flagged | address | called | returned | overflowed | underflowed | cleared => rfl

/-! ### FS and the count of draws -/

/-- FS is no input of any instruction (R38). -/
theorem sameInputs_withFs (i : Instr) (s : State) (fs : BitVec 32) : SameInputs i s { s with fs := fs } where
  pc := rfl
  sp := rfl
  stack := rfl
  regs _ _ := rfl
  sprite _ _ _ _ := ⟨rfl, rfl, rfl⟩

/-- A write from another FS does the same in every other field. -/
theorem Writes.withFs {i : Instr} {F : State → State} (hF : Writes i F) (s : State) (fs : BitVec 32) :
    { F { s with fs := fs } with fs := (F s).fs } = F s := by
  cases hF with
  | moved | jumped | plain | random | flagged | address | called | returned | overflowed | underflowed | cleared | drawn => rfl

/-- Settles O30: the effects that change FS are the two raised faults, and FS is no input of any instruction. -/
theorem faultStatusWrittenByStackFaultsOnly : Obligations.FaultStatusWrittenByStackFaultsOnly := by
  refine ⟨fun i s t hinv h hne => ?_, fun i s t fs h => ?_⟩
  · obtain heq | ⟨hcall, hsp, rfl⟩ | ⟨hret, hsp, rfl⟩ := (effect_of_exec h).fs_cases
    · exact absurd heq hne
    · exact ⟨.inl ⟨hcall, hsp, fsCause_fsWord _ _⟩, toNat_fsFpc_raiseFault _ hinv.pc_lt, fsWord_unused _ _⟩
    · exact ⟨.inr ⟨hret, hsp, fsCause_fsWord _ _⟩, toNat_fsFpc_raiseFault _ hinv.pc_lt, fsWord_unused _ _⟩
  · obtain ⟨F, hF, hs, hs'⟩ := exec_of_sameInputs (sameInputs_withFs i s fs)
    obtain rfl : F s = t := next_inj (hs.symm.trans h)
    exact ⟨_, hs', hF.withFs s fs⟩

/-- Settles O31: the write of Cxkk alone moves the count of draws on or looks at it. -/
theorem randomByteTakenByRndOnly : Obligations.RandomByteTakenByRndOnly := by
  refine ⟨fun i s t h => ⟨?_, (effect_of_exec h).draws_eq⟩, fun i s d hrnd => ?_⟩
  · rintro ⟨x, kk, rfl⟩
    exact (effect_of_exec h).draws_of_rnd
  · have hin : SameInputs i s { s with draws := d } := ⟨rfl, rfl, rfl, fun _ _ => rfl, fun _ _ _ _ => ⟨rfl, rfl, rfl⟩⟩
    refine exec_update (U := fun t => { t with draws := d }) hin fun F hF => ?_
    cases hF with
    | random x kk => exact absurd rfl (hrnd x kk)
    | moved | jumped | plain | flagged | address | called | returned | overflowed | underflowed | cleared | drawn => rfl

end Sys2Proof.Machine
end

section
/-! PROOFS of the statements about what the host puts into memory (spec files 20_memory.md and 70_reset_and_hazards.md): the
canonical form, a host's write, a program load, a reset with another FONT, and the placing of a word at pc. -/

namespace Sys2Proof.Machine

/-! ### The canonical form (log entry 11) -/

theorem Memory.wfFrom_cons_iff {lo k : Nat} {b : Byte} {rest : Memory} : Memory.wfFrom lo ((k, b) :: rest) = true ↔
    lo ≤ k ∧ k < 0x1000 ∧ b ≠ unlistedByte k ∧ rest.wfFrom (k + 1) = true := by
  simp [Memory.wfFrom, and_assoc]

/-- The first address listed is one whose byte differs from the unlisted one, so a memory that reads alike lists an address no
higher first. -/
theorem Memory.head_le_of_byteAt_eq {lo k : Nat} {b : Byte} {rest m : Memory} (h : Memory.wfFrom lo ((k, b) :: rest) = true)
    (hbyte : m.byteAt k = Memory.byteAt ((k, b) :: rest) k) {lo' : Nat} (hm : m.wfFrom lo' = true) : lo' ≤ k := by
  obtain ⟨-, -, hne, -⟩ := Memory.wfFrom_cons_iff.mp h
  by_contra hlt
  rw [Memory.byteAt_of_wfFrom hm (by omega)] at hbyte
  exact hne (by simpa [Memory.byteAt] using hbyte.symm)

/-- Well-formed memories that hold the same bytes are the same list: by induction, since their first cells are the same. -/
theorem Memory.eq_of_byteAt_eq : ∀ {m m' : Memory} {lo : Nat}, m.wfFrom lo = true → m'.wfFrom lo = true →
    (∀ a < 0x1000, m.byteAt a = m'.byteAt a) → m = m'
  | [], [], _, _, _, _ => rfl
  | [], (k, b) :: rest, _, _, h', heq => by
    obtain ⟨-, hk, hne, -⟩ := Memory.wfFrom_cons_iff.mp h'
    exact absurd (by simpa [Memory.byteAt] using (heq k hk).symm) hne
  | (k, b) :: rest, [], _, h, _, heq => by
    obtain ⟨-, hk, hne, -⟩ := Memory.wfFrom_cons_iff.mp h
    exact absurd (by simpa [Memory.byteAt] using heq k hk) hne
  | (k, b) :: rest, (k', b') :: rest', lo, h, h', heq => by
    obtain ⟨-, hk, hb, hrest⟩ := Memory.wfFrom_cons_iff.mp h
    obtain ⟨-, hk', hb', hrest'⟩ := Memory.wfFrom_cons_iff.mp h'
    have hle : k' ≤ k := Memory.head_le_of_byteAt_eq h (heq k hk).symm
      (Memory.wfFrom_cons_iff.mpr ⟨Nat.le_refl k', hk', hb', hrest'⟩)
    have hge : k ≤ k' := Memory.head_le_of_byteAt_eq h' (heq k' hk')
      (Memory.wfFrom_cons_iff.mpr ⟨Nat.le_refl k, hk, hb, hrest⟩)
    obtain rfl : k = k' := Nat.le_antisymm hge hle
    obtain rfl : b = b' := by simpa [Memory.byteAt] using heq k hk
    rw [Memory.eq_of_byteAt_eq hrest hrest' fun a ha => ?_]
    obtain hlt | hgt := Nat.lt_or_ge a (k + 1)
    · rw [Memory.byteAt_of_wfFrom hrest hlt, Memory.byteAt_of_wfFrom hrest' hlt]
    · simpa [Memory.byteAt, show k ≠ a by omega] using heq a ha

/-- Settles O18: an address below 0x1000 is an address of 12 bits. -/
theorem equalBytesMakeEqualMemory : Obligations.EqualBytesMakeEqualMemory := by
  refine fun m m' h h' heq => Memory.eq_of_byteAt_eq h h' fun a ha => ?_
  simpa [Nat.mod_eq_of_lt ha] using heq (BitVec.ofNat 12 a)

/-! ### A host's write (R210) -/

/-- Settles O17: the write is a store of one byte, and a store keeps the canonical form. -/
theorem hostWriteIsReadBack : Obligations.HostWriteIsReadBack := fun _ a b h =>
  ⟨(memRead_memWrite h a a b).trans (if_pos rfl), fun x hx => (memRead_memWrite h a x b).trans (if_neg hx.symm),
    Memory.wf_store h a b, rfl⟩

/-! ### Placing bytes (R234; decision D22) -/

/-- An address below 0x1000 is the number it is made from. -/
theorem toNat_toAddr_of_lt {n : Nat} (h : n < 0x1000) : (toAddr n).toNat = n :=
  (BitVec.toNat_ofNat n 12).trans (Nat.mod_eq_of_lt h)

/-- Byte `k` of placed bytes is read back `k` above the first address. -/
theorem memRead_placeBytes_getElem {a : Nat} {bytes : List Byte} {s : State} (h : s.mem.wf = true)
    (hfit : a + bytes.length ≤ 0x1000) {k : Nat} (hk : k < bytes.length) :
    memRead (placeBytes a bytes s) (toAddr (a + k)) = bytes[k] := by
  rw [memRead_placeBytes a bytes h hfit, toNat_toAddr_of_lt (by omega), if_pos (by omega), Nat.add_sub_cancel_left,
    List.getD_eq_getElem _ _ hk]

/-- An address outside the placed bytes reads as before. -/
theorem memRead_placeBytes_of_outside {a : Nat} {bytes : List Byte} {s : State} (h : s.mem.wf = true)
    (hfit : a + bytes.length ≤ 0x1000) {x : Addr} (hx : x.toNat < a ∨ a + bytes.length ≤ x.toNat) :
    memRead (placeBytes a bytes s) x = memRead s x := by
  rw [memRead_placeBytes a bytes h hfit, if_neg (by omega)]

/-- Placing bytes changes no field but memory. -/
theorem placeBytes_withMem (a : Nat) (bytes : List Byte) (s : State) (m : Memory) :
    { placeBytes a bytes s with mem := m } = { s with mem := m } := by
  rw [placeBytes_eq]

/-- Settles O15: the font bytes are placed from 0x000 on over the reset state, which reads as 0 above them. -/
theorem resetWithFontHoldsFont : Obligations.ResetWithFontHoldsFont := by
  intro bytes
  have hlen : bytes.toList.length = 80 := bytes.length_toList
  refine ⟨placeBytes_wf 0 _ reset_mem_wf, fun k => ?_, fun a ha => ?_, placeBytes_withMem 0 _ State.reset []⟩
  · have hk : k.val < bytes.toList.length := Nat.lt_of_lt_of_eq k.isLt hlen.symm
    have hread := memRead_placeBytes_getElem (a := 0) reset_mem_wf (by omega) hk
    rw [Nat.zero_add] at hread
    exact hread.trans (Vector.getElem_toList _)
  · exact (memRead_placeBytes_of_outside (a := 0) (bytes := bytes.toList) reset_mem_wf (by omega) (.inr (by omega))).trans
      ((memRead_reset a).trans (unlistedByte_eq_zero ha))

/-- An image that fits is loaded. -/
theorem loadProgram_eq_some {image : List Byte} (h : image.length ≤ 0xE00) (s : State) :
    loadProgram image s = some (placeBytes 0x200 image s) := if_pos h

/-- Settles O16: the load places the image at 0x200, and 0x200 + 0xE00 is the end of memory. -/
theorem programLoadPlacesImage : Obligations.ProgramLoadPlacesImage := fun image s h hlen =>
  ⟨_, loadProgram_eq_some hlen s, fun _ hk => memRead_placeBytes_getElem h (by omega) hk,
    fun _ ha => memRead_placeBytes_of_outside h (by omega) ha, placeBytes_wf 0x200 image h,
    placeBytes_withMem 0x200 image s s.mem⟩

/-! ### Placing a word where the next step fetches it (log entry 7) -/

/-- In an unfaulted state placing a word stores its two bytes and does nothing else. -/
theorem withFetchWord_of_unfaulted {s : State} (h : s.Unfaulted) (w : Word) : s.withFetchWord 16 w.toNat =
    memWrite (toAddr (s.pc.toNat + 1)) (lowByte w) (memWrite (toAddr s.pc.toNat) (highByte w) s) := by
  have hw : BitVec.ofNat 16 (w.toNat % 2 ^ 16) = w := by
    rw [Nat.mod_eq_of_lt w.isLt, BitVec.ofNat_toNat, BitVec.setWidth_eq]
  simp only [State.withFetchWord, (pendingFault_eq_none_iff s).mpr h, hw, Option.isSome_none, Bool.false_eq_true, if_false]

/-- The two bytes of a fetched word stand at different addresses. -/
theorem toAddr_succ_ne (n : Nat) : toAddr (n + 1) ≠ toAddr n := by
  intro h
  have := congrArg BitVec.toNat h
  simp only [toAddr, BitVec.toNat_ofNat] at this
  omega

/-- A byte read after two stores, the last of which stands where they meet. -/
theorem memRead_memWrite_memWrite {s : State} (h : s.mem.wf = true) (a a' x : Addr) (b b' : Byte) :
    memRead (memWrite a' b' (memWrite a b s)) x = if a' = x then b' else if a = x then b else memRead s x := by
  rw [memRead_memWrite (Memory.wf_store h a b), memRead_memWrite h]

/-- An unfaulted step runs the word whose two bytes stand at pc and above it. -/
theorem step_of_bytes_at_pc {s : State} {w : Word} (hu : s.Unfaulted) (hhigh : memRead s (toAddr s.pc.toNat) = highByte w)
    (hlow : memRead s (toAddr (s.pc.toNat + 1)) = lowByte w) : step s = exec (decode w) s := by
  rw [step_of_unfaulted hu, fetch, hhigh, hlow, joinBytes_high_low]

/-- Settles O9: the two stores put the word's bytes where the next fetch reads them, and the state stays unfaulted. -/
theorem placedWordRunsNext : Obligations.PlacedWordRunsNext := by
  intro s w hinv hu
  rw [withFetchWord_of_unfaulted hu]
  have hread := fun x => memRead_memWrite_memWrite hinv.mem_wf (toAddr s.pc.toNat) (toAddr (s.pc.toNat + 1)) x
    (highByte w) (lowByte w)
  have hhigh := (hread (toAddr s.pc.toNat)).trans ((if_neg (toAddr_succ_ne _)).trans (if_pos rfl))
  have hlow := (hread (toAddr (s.pc.toNat + 1))).trans (if_pos rfl)
  exact ⟨step_of_bytes_at_pc hu hhigh hlow, hhigh, hlow, rfl,
    fun a ha ha' => (hread a).trans ((if_neg ha'.symm).trans (if_neg ha.symm))⟩

end Sys2Proof.Machine
end

section
/-! PROOFS of the statements about the step and about runs (spec file 40_fetch_dispatch.md, rules R110, R120, R121, and 41 5.1):
a step is always answered, the step under given parameters, how runs of a step count and runs to a watched address end, the
idle loop, and the round trip of a call and its return. -/

namespace Sys2Proof.Machine

/-! ### The step (R110, R114) and its parameters (R7) -/

/-- Settles O10: every handler has an effect, and an unfaulted step is a handler. -/
theorem everyUnfaultedStateSteps : Obligations.EveryUnfaultedStateSteps := by
  have hexec : ∀ (i : Instr) (s : State), ∃ t, exec i s = .next t := fun i s =>
    let ⟨t, ht, _⟩ := exec_effect i s
    ⟨t, ht⟩
  exact ⟨hexec, fun s hu => (step_of_unfaulted hu).symm ▸ hexec (decode (fetch s)) s⟩

/-- Settles O11: under this hardware's parameters decoding and every handler are its own. -/
theorem stepWithOwnParamsIsStep : Obligations.StepWithOwnParamsIsStep := by
  refine ⟨rfl, fun s => ?_⟩
  unfold stepWith step
  rw [execWith_params]
  rfl

/-- The forms that name VF as an operand of a flag-setting instruction (decision D1). -/
theorem namesVfOperand_iff (i : Instr) : namesVfOperand i = true ↔ ∃ x y, (x = VF ∨ y = VF) ∧
    (i = .subReg x y ∨ i = .shr x y ∨ i = .subnReg x y ∨ i = .shl x y ∨ ∃ n, i = .drw x y n) := by
  constructor
  · intro h
    cases i with
    | subReg x y | shr x y | subnReg x y | shl x y | drw x y => exact ⟨x, y, by simpa [namesVfOperand] using h, by simp⟩
    | _ => cases h
  · rintro ⟨x, y, h, rfl | rfl | rfl | rfl | ⟨n, rfl⟩⟩ <;> simpa [namesVfOperand] using h

/-- A named form is refused. -/
theorem execWith_refuse {i : Instr} (h : namesVfOperand i = true) (k : Group0Key) (pol : SpriteAddrPolicy) (s : State) :
    execWith ⟨k, pol, .refuseVfOperand⟩ i s = .refused .vfOperand :=
  if_pos ⟨rfl, h⟩

/-- Any other form is run as under snapshot. -/
theorem execWith_of_not_named {i : Instr} (h : namesVfOperand i = false) (k : Group0Key) (pol : SpriteAddrPolicy)
    (s : State) : execWith ⟨k, pol, .refuseVfOperand⟩ i s = execWith ⟨k, pol, .snapshot⟩ i s := by
  simp [execWith, h]

/-- Settles O12: the refusal is by the named forms, and the key of group 0 is the decoder's affair. -/
theorem vfOperandRefusedExactly : Obligations.VfOperandRefusedExactly := by
  intro k pol i s
  rw [← namesVfOperand_iff, Bool.not_eq_true]
  exact ⟨fun h => execWith_refuse h k pol s, fun h => execWith_of_not_named h k pol s, execWith_params i s⟩

/-! ### Runs of a step count (R121; decision D20) -/

/-- What a run comes to when the host requests `n` more steps where it ended: a fault or a refusal stays. -/
def RunEnd.resume (n : Nat) : RunEnd → RunEnd
  | .stopped t => runFor n t
  | .faulted f t => .faulted f t
  | .refused r t => .refused r t

/-- A run of `m + n` steps is the run of `m`, resumed. -/
theorem runFor_add (m n : Nat) (s : State) : runFor (m + n) s = (runFor m s).resume n := by
  induction m generalizing s with
  | zero =>
    obtain ⟨f, hf⟩ | ⟨hu, -⟩ := step_cases s
    · rw [runFor_of_pending hf, runFor_of_pending hf, RunEnd.resume]
    · rw [Nat.zero_add, runFor_zero, stopHere_of_unfaulted hu, RunEnd.resume]
  | succ m ih =>
    obtain ⟨f, hf⟩ | ⟨-, t, ht⟩ := step_cases s
    · rw [runFor_of_pending hf, runFor_of_pending hf, RunEnd.resume]
    · rw [Nat.succ_add, runFor_succ_of_next ht, runFor_succ_of_next ht, ih]

/-- A run ends stopped in an unfaulted state, or faulted with the fault that CAUSE names. -/
theorem runFor_ends (n : Nat) (s : State) : (∃ t, runFor n s = .stopped t ∧ t.Unfaulted) ∨
    ∃ f t, runFor n s = .faulted f t ∧ causeCode f = fsCause t.fs := by
  induction n generalizing s with
  | zero =>
    obtain ⟨f, hf⟩ | ⟨hu, -⟩ := step_cases s
    · exact .inr ⟨f, s, runFor_of_pending hf 0, (pendingFault_eq_some_iff s f).mp hf⟩
    · exact .inl ⟨s, stopHere_of_unfaulted hu, hu⟩
  | succ n ih =>
    obtain ⟨f, hf⟩ | ⟨-, t, ht⟩ := step_cases s
    · exact .inr ⟨f, s, runFor_of_pending hf _, (pendingFault_eq_some_iff s f).mp hf⟩
    · rw [runFor_succ_of_next ht]
      exact ih t

/-- Settles O57: a run is resumed where it stopped, and not where it faulted. -/
theorem runOfStepCountEndsStoppedOrFaulted : Obligations.RunOfStepCountEndsStoppedOrFaulted :=
  ⟨fun _ hu => stopHere_of_unfaulted hu, fun n _ _ h => runFor_succ_of_next h n,
    fun m n s _ h => (runFor_add m n s).trans (congrArg (RunEnd.resume n) h),
    fun m n s _ _ h => (runFor_add m n s).trans (congrArg (RunEnd.resume n) h), runFor_ends⟩

/-! ### Runs to a watched address (R121, log entry 14) -/

/-- The first `k` states of a run from `s` are unfaulted and away from the watched address. -/
def Away (watch : Addr) (k : Nat) (s : State) : Prop :=
  ∀ j < k, ∃ u, runFor j s = .stopped u ∧ u.pc.toNat ≠ watch.toNat

/-- The end of a run that a host watching an address waits for: stopped there, or faulted anywhere. -/
def RunEnd.Awaited (watch : Addr) : RunEnd → Prop
  | .stopped t => t.pc.toNat = watch.toNat
  | .faulted _ _ => True
  | .refused _ _ => False

/-- After `k` steps the run comes, for the first time, to an end that the host waits for. -/
def EndsFirst (watch : Addr) (k : Nat) (s : State) (e : RunEnd) : Prop :=
  runFor k s = e ∧ e.Awaited watch ∧ Away watch k s

section
variable {watch : Addr} {s t : State} {k k' : Nat} {e e' : RunEnd}

/-- pc is at the watched address exactly where their numbers are equal. -/
theorem pc_eq_watch_iff : s.pc = watch.zeroExtend 16 ↔ s.pc.toNat = watch.toNat := by
  rw [← toNat_addrOperand watch, BitVec.toNat_inj]
  rfl

/-- A step from an unfaulted state away from the address puts one such state before the run. -/
theorem away_succ_of_next (hu : s.Unfaulted) (hw : s.pc.toNat ≠ watch.toNat) (ht : step s = .next t)
    (h : Away watch k t) : Away watch (k + 1) s
  | 0, _ => ⟨s, stopHere_of_unfaulted hu, hw⟩
  | j + 1, hj => by
    rw [runFor_succ_of_next ht]
    exact h j (Nat.lt_of_succ_lt_succ hj)

/-- An awaited end is none of the states of a run that is away throughout. -/
theorem EndsFirst.not_away (h : EndsFirst watch k s e) (hk : k < k') : ¬ Away watch k' s := by
  intro haway
  obtain ⟨u, hu, hne⟩ := haway k hk
  obtain ⟨rfl, hawaited, -⟩ := h
  rw [hu] at hawaited
  exact hne hawaited

/-- A run has one first awaited end. -/
theorem EndsFirst.unique (h : EndsFirst watch k s e) (h' : EndsFirst watch k' s e') : e = e' := by
  obtain hlt | rfl | hgt := Nat.lt_trichotomy k k'
  · exact absurd h'.2.2 (h.not_away hlt)
  · exact h.1.symm.trans h'.1
  · exact absurd h.2.2 (h'.not_away hgt)

/-- A watched run ends at its first awaited end within the limit, or is away throughout and has none. -/
theorem runTo_cases (watch : Addr) (limit : Nat) (s : State) :
    (∃ e, runTo watch limit s = some e ∧ ∃ k ≤ limit, EndsFirst watch k s e) ∨
      (runTo watch limit s = none ∧ Away watch (limit + 1) s) := by
  induction limit generalizing s with
  | zero =>
    obtain ⟨f, hf⟩ | ⟨hu, -⟩ := step_cases s
    · exact .inl ⟨_, runTo_of_pending hf watch 0, 0, Nat.le_refl 0, runFor_of_pending hf 0, trivial, nofun⟩
    by_cases hw : s.pc.toNat = watch.toNat
    · exact .inl ⟨_, runTo_of_reached hu (pc_eq_watch_iff.mpr hw) 0, 0, Nat.le_refl 0, stopHere_of_unfaulted hu, hw, nofun⟩
    · refine .inr ⟨runTo_zero_of_away hu (mt pc_eq_watch_iff.mp hw), fun j hj => ⟨s, ?_, hw⟩⟩
      rw [Nat.lt_one_iff.mp hj]
      exact stopHere_of_unfaulted hu
  | succ n ih =>
    obtain ⟨f, hf⟩ | ⟨hu, t, ht⟩ := step_cases s
    · exact .inl ⟨_, runTo_of_pending hf watch _, 0, Nat.zero_le _, runFor_of_pending hf 0, trivial, nofun⟩
    by_cases hw : s.pc.toNat = watch.toNat
    · exact .inl ⟨_, runTo_of_reached hu (pc_eq_watch_iff.mpr hw) _, 0, Nat.zero_le _, stopHere_of_unfaulted hu, hw, nofun⟩
    · rw [runTo_succ_of_away hu (mt pc_eq_watch_iff.mp hw) ht]
      obtain ⟨e, hrun, k, hk, hend, hawaited, haway⟩ | ⟨hrun, haway⟩ := ih t
      · exact .inl ⟨e, hrun, k + 1, Nat.succ_le_succ hk, (runFor_succ_of_next ht k).trans hend, hawaited,
          away_succ_of_next hu hw ht haway⟩
      · exact .inr ⟨hrun, away_succ_of_next hu hw ht haway⟩

/-- A watched run ends exactly at its first awaited end within the limit. -/
theorem runTo_eq_some_iff (watch : Addr) (limit : Nat) (s : State) (e : RunEnd) :
    runTo watch limit s = some e ↔ ∃ k ≤ limit, EndsFirst watch k s e := by
  obtain ⟨e', hrun, k, hk, hend⟩ | ⟨hrun, haway⟩ := runTo_cases watch limit s
  · rw [hrun, Option.some_inj]
    exact ⟨fun h => h ▸ ⟨k, hk, hend⟩, fun ⟨_, _, hend'⟩ => hend.unique hend'⟩
  · rw [hrun]
    exact ⟨nofun, fun ⟨k, hk, hend⟩ => absurd haway (hend.not_away (Nat.lt_succ_of_le hk))⟩

/-- A watched run has not ended exactly where it is away throughout. -/
theorem runTo_eq_none_iff (watch : Addr) (limit : Nat) (s : State) :
    runTo watch limit s = none ↔ Away watch (limit + 1) s := by
  obtain ⟨e, hrun, k, hk, hend⟩ | ⟨hrun, haway⟩ := runTo_cases watch limit s
  · rw [hrun]
    exact ⟨nofun, fun haway => absurd haway (hend.not_away (Nat.lt_succ_of_le hk))⟩
  · exact ⟨fun _ => haway, fun _ => hrun⟩

end

/-- Settles O58: a watched run ends at its first awaited end, which is stopped at the address or faulted, and never refused. -/
theorem runToWatchedAddressEndsThereFirst : Obligations.RunToWatchedAddressEndsThereFirst := by
  refine fun watch limit s => ⟨fun t => runTo_eq_some_iff watch limit s (.stopped t), fun f t => ?_, ?_, fun r t h => ?_⟩
  · rw [runTo_eq_some_iff]
    simp only [EndsFirst, RunEnd.Awaited, true_and, Away]
  · rw [runTo_eq_none_iff]
    simp only [Away, Nat.lt_succ_iff]
  · obtain ⟨_, _, _, hawaited, _⟩ := (runTo_eq_some_iff watch limit s _).mp h
    exact hawaited

/-! ### The idle loop (40 4.5) -/

/-- A jump to the state's own pc changes nothing. -/
theorem writePc_self {s : State} (h : s.pc.toNat < 0x1000) : writePc s.pc.toNat s = s := by
  rw [writePc, Nat.mod_eq_of_lt h, BitVec.ofNat_toNat, BitVec.setWidth_eq]

/-- A state that steps to itself stops a run of any step count. -/
theorem runFor_of_step_self {s : State} (h : step s = .next s) : ∀ n, runFor n s = .stopped s
  | 0 => stopHere_of_unfaulted (unfaulted_of_step_next h)
  | n + 1 => (runFor_succ_of_next h n).trans (runFor_of_step_self h n)

/-- Settles O59: the jump writes pc with its own value, so the state steps to itself. -/
theorem selfJumpIsIdleLoop : Obligations.SelfJumpIsIdleLoop := by
  intro s nnn hu hdecode hpc
  have hself : step s = .next s := by
    have hjump : exec (.jp nnn) s = .next (writePc (addrOperand nnn).toNat s) := rfl
    rw [step_of_unfaulted hu, hdecode, hjump, toNat_addrOperand, ← hpc, writePc_self (hpc ▸ nnn.isLt)]
  exact ⟨hself, runFor_of_step_self hself⟩

/-! ### Call and return (R133) -/

/-- A run that stays at depth `d` or above keeps every entry below `d`: a call there writes at `d` or above. -/
theorem RunAbove.keeps_entry {d : Nat} {s t : State} (h : RunAbove d s t) :
    d ≤ t.sp.val ∧ ∀ k : Fin 16, k.val < d → stackEntry t k = stackEntry s k := by
  induction h with
  | refl hd => exact ⟨hd, fun _ _ => rfl⟩
  | @step t u _ hstep hd ih =>
    obtain ⟨hdt, hkeep⟩ := ih
    obtain ⟨-, hexec⟩ := (step_eq_next_iff t u).mp hstep
    refine ⟨hd, fun k hk => ?_⟩
    obtain heq | ⟨-, hslot, -⟩ := (effect_of_exec hexec).stackEntry_cases k
    · exact heq.trans (hkeep k hk)
    · omega

/-- A step that runs an instruction is its handler's answer. -/
theorem exec_of_step {s t : State} {i : Instr} (hi : decode (fetch s) = i) (h : step s = .next t) : exec i s = .next t :=
  hi ▸ ((step_eq_next_iff s t).mp h).right

/-- Settles O39: the call's return address stays at its slot along the run, and the return pops that slot. -/
theorem callReturnRoundTrip : Obligations.CallReturnRoundTrip := by
  intro s t u v nnn hroom hcall hst hrun hdepth hret huv
  obtain rfl := next_inj ((exec_call_of_room nnn hroom).symm.trans (exec_of_step hcall hst))
  have husp : u.sp.val = s.sp.val + 1 := congrArg Fin.val hdepth
  have hentry : 0 < u.sp.val := by omega
  obtain rfl := next_inj ((exec_ret_of_entry hentry).symm.trans (exec_of_step hret huv))
  have hslot : stackEntry u ⟨s.sp.val, hroom⟩ = returnAddress s := by
    rw [hrun.keeps_entry.2 ⟨s.sp.val, hroom⟩ (Nat.lt_succ_self _), stackEntry_writePc, stackEntry_pushEntry, if_pos rfl]
  refine ⟨?_, Fin.ext (show u.sp.val - 1 = s.sp.val by omega)⟩
  rw [toNat_writePc, topEntry_eq_stackEntry hentry (k := ⟨s.sp.val, hroom⟩) husp.symm, hslot, toNat_returnAddress,
    Nat.mod_mod]

end Sys2Proof.Machine
end

section
/-! PROOFS of the statements about flags, the random byte and draws (spec files 42_alu.md and 43_display.md): VF after a
flag-setting instruction, Cxkk, the draw-twice law and the wrap law. -/

namespace Sys2Proof.Machine

/-! ### The flag (R31) -/

/-- A flag is 0 or 1. -/
theorem boolByte_zero_or_one (c : Bool) : boolByte c = 0 ∨ boolByte c = 1 := by cases c <;> simp [boolByte]

/-- A flag is 1 exactly where its condition holds. -/
theorem boolByte_eq_one_iff (c : Bool) : boolByte c = 1 ↔ c = true := by cases c <;> decide

/-- A handler that ends in `finishFlag` leaves 0 or 1 in VF. -/
theorem vf_of_exec_eq_finishFlag {i : Instr} {x : RegIdx} {r : Byte} {f : Bool} {s t : State} (h : exec i s = .next t)
    (hi : exec i s = .next (finishFlag x r f s)) : readV t VF = 0 ∨ readV t VF = 1 := by
  obtain rfl := next_inj (hi.symm.trans h)
  rw [readV_finishFlag_vf]
  exact boolByte_zero_or_one f

/-- The next state of a draw (R182). -/
theorem eq_of_exec_drw {x y : RegIdx} {n : Nibble} {s t : State} (h : exec (.drw x y n) s = .next t) :
    t = advance (writeV VF (boolByte (drawSprite s s.i.toNat (readV s x).toNat (readV s y).toNat n.toNat).2)
      (writeScreen (drawSprite s s.i.toNat (readV s x).toNat (readV s y).toNat n.toNat).1 s)) :=
  next_inj (h.symm.trans (execDrw_eq x y n s))

/-- Settles O32: the five ALU handlers end in `finishFlag`, and a draw writes VF last. -/
theorem flagIsZeroOrOneAfterFlagSetters : Obligations.FlagIsZeroOrOneAfterFlagSetters := by
  intro i s t hset h
  cases i with
  | addReg | subReg | shr | subnReg | shl => exact vf_of_exec_eq_finishFlag h rfl
  | drw x y n =>
    rw [eq_of_exec_drw h, readV_vf_drawn]
    exact boolByte_zero_or_one _
  | _ => cases hset

/-! ### The random byte (R166) -/

/-- A masked byte has no bit outside its mask. -/
theorem and_and_not_self (a m : Byte) : a &&& m &&& ~~~m = 0 := by
  rw [BitVec.and_assoc, BitVec.and_not_self]
  exact BitVec.and_zero

/-- Settles O50: the byte of this draw, masked, is written once the draw is taken. -/
theorem randomIsMasked : Obligations.RandomIsMasked := by
  intro x kk s
  have hx : readV (finishPlain x (randOffered s &&& kk) (takeRand s)) x = Config.randByte s.draws &&& kk :=
    readV_finishPlain_same x _ _
  refine ⟨_, rfl, hx, ?_, rfl, finishPlain_pcMoved x _ (takeRand s), finishPlain_keeps x _ s⟩
  rw [hx]
  exact and_and_not_self _ kk

/-! ### The draw-twice law (R184) -/

/-- A draw keeps I, memory and every register but VF, so a second equal draw with operands other than VF reads the same. -/
theorem drawn_keeps {x y : RegIdx} {n : Nibble} {s t : State} (h : exec (.drw x y n) s = .next t) :
    t.i = s.i ∧ (∀ a, memRead t a = memRead s a) ∧ ∀ r, r ≠ VF → readV t r = readV s r := by
  obtain rfl := eq_of_exec_drw h
  exact ⟨rfl, fun _ => rfl, fun r hr => readV_writeV_of_ne hr.symm _ _⟩

/-- Settles O55: a visited pixel is XORed twice with the same bit, and the second draw meets a set pixel under a set bit
exactly where the first turned one on. -/
theorem drawTwiceRestoresScreen : Obligations.DrawTwiceRestoresScreen := by
  intro x y n s t u hx hy hst htu
  obtain ⟨hi, hmem, hregs⟩ := drawn_keeps hst
  obtain rfl := eq_of_exec_drw htu
  rw [hi, hregs x hx, hregs y hy]
  have hscreen : t.screen = (drawSprite s s.i.toNat (readV s x).toNat (readV s y).toNat n.toNat).1 :=
    congrArg State.screen (eq_of_exec_drw hst)
  generalize s.i.toNat = base, (readV s x).toNat = cx, (readV s y).toNat = cy at hscreen ⊢
  have hfirst : ∀ r < n.toNat, ∀ b < 8, t.screen.pixel (toColumn (cx + b)) (toRow (cy + r)) =
      (s.screen.pixel (toColumn (cx + b)) (toRow (cy + r)) ^^ (memRead s (toAddr (base + r))).getMsbD b) :=
    fun r hr b hb => hscreen ▸ pixel_drawSprite s base cx cy n hr hb
  refine ⟨fun c q => ?_, ?_⟩
  · by_cases hvisit : ∃ r < n.toNat, ∃ b < 8, toColumn (cx + b) = c ∧ toRow (cy + r) = q
    · obtain ⟨r, hr, b, hb, rfl, rfl⟩ := hvisit
      rw [advance_screen, writeV_screen, writeScreen_screen, pixel_drawSprite t base cx cy n hr hb, hfirst r hr b hb, hmem,
        Bool.xor_assoc, Bool.xor_self, Bool.xor_false]
    · have hmiss : ∀ r < n.toNat, ∀ b < 8, ¬(toColumn (cx + b) = c ∧ toRow (cy + r) = q) := by
        simpa only [not_exists, not_and] using hvisit
      rw [advance_screen, writeV_screen, writeScreen_screen, pixel_drawSprite_of_unvisited t base cx cy n hmiss, hscreen,
        pixel_drawSprite_of_unvisited s base cx cy n hmiss]
  · rw [readV_vf_drawn, boolByte_eq_one_iff, drawSprite_collides_iff]
    refine exists_congr fun r => and_congr_right fun hr => exists_congr fun b => and_congr_right fun hb => ?_
    rw [hfirst r hr b hb, hmem, and_comm]
    refine and_congr_right fun hbit => ?_
    rw [hbit, Bool.xor_true, Bool.not_eq_true']

/-! ### The wrap law (R185) -/

/-- Settles O56: the visited columns and rows are the listed ones. -/
theorem drawWrapsAtEdges : Obligations.DrawWrapsAtEdges := by
  intro x y s t hx hy h r b
  obtain rfl := eq_of_exec_drw h
  have hleft : toColumn (60 + b.val) = ![60, 61, 62, 63] b := by revert b; decide
  have hright : toColumn (60 + (b.val + 4)) = ![0, 1, 2, 3] b := by revert b; decide
  have hrow : toRow (30 + r.val) = ![30, 31, 0, 1] r := by revert r; decide
  have hpixel := fun k hk => pixel_drawSprite s s.i.toNat 60 30 4 (r := r.val) (b := k) r.isLt hk
  rw [hrow] at hpixel
  rw [hx, hy, ← hleft, ← hright]
  exact ⟨hpixel b.val (by omega), hpixel (b.val + 4) (by omega)⟩

end Sys2Proof.Machine
end
